-- ==== Sys2Proof/Word.lean ====
section
/-! DEFINITION. The bit types of the block (00_scope.md R6): bytes, symbols and table keys.
Bit 7 of a byte is its most significant bit; every integer of the block is unsigned. -/

namespace Sys2Proof

/-- A byte: a ChannelValue, a byte of a waveform, of the buffer or of a frame (00_scope.md R6). -/
abbrev Byte := BitVec 8

/-- The 3-bit waveform of one logical bit, its bit 2 the earliest (30_encoding.md R51). -/
abbrev Symbol := BitVec 3

/-- A key of `LUT_H` or of `LUT_L` (30_encoding.md R53). -/
abbrev Key3 := BitVec 3

/-- A key of `LUT_M` (30_encoding.md R53). -/
abbrev Key2 := BitVec 2

end Sys2Proof
end

