-- ==== Sys2Proof/Config.lean ====
section
/-! DEFINITION. The parameters of the block (00_scope.md R5) and the values the spec leaves open.
A value the spec leaves open has no body here (BUF_RESET) or is the spec's own default (ALLOC_CAN_FAIL). -/

namespace Sys2Proof.Config

/-- `C`, the only supported `channels_per_led` (00_scope.md R5). -/
abbrev channels : Nat := 3

/-- `S`, the oversampling factor: output bytes per channel value (00_scope.md R5). -/
abbrev oversampling : Nat := 3

/-- `B = C * S`, the only supported `bytes_per_led_command`: the size of a slot (00_scope.md R5). -/
abbrev slotBytes : Nat := 9

/-- `PAD`, the value of the leading and of the trailing pad byte (00_scope.md R5). -/
abbrev pad : Byte := 0x00#8

/-- `N_MAX`, the largest `N` the 32-bit request word can address (00_scope.md R5, 92_eei_decisions.md D2). -/
abbrev maxWordChips : Nat := 256

/-- `ALLOC_CAN_FAIL`: the spec's own default (92_eei_decisions.md D8), which keeps every outcome the source lists.
DESIGN CHOICE, safe; log entry 13. -/
def allocCanFail : Bool := true

/-- `BUF_RESET`: the byte at address `addr` of the buffer that bring-up number `draw` of chain context `chain`
allocates. A free value: the spec leaves it open with the default 'arbitrary' (10_state.md R22, 92_eei_decisions.md D5).
Whether two chain contexts draw alike is open too: each draws for itself, and nothing relates their bytes. DESIGN
CHOICE, safe; log entries 11 and 22. -/
opaque bufReset (chain draw addr : Nat) : Byte

end Sys2Proof.Config
end

