-- ==== Sys2Proof/Syntax.lean ====
section
/-! DEFINITION. The operations of the block: one constructor per row of spec/opcode_table.json, the ports at which
they are presented, and the transactions that present them (92_eei_decisions.md D1). -/

namespace Sys2Proof

/-- The rows of the opcode table (30_encoding.md section 7): two symbols, twenty table entries, and the thirteen
operations of 00_scope.md R8. Operands that the table gives no bits (`req.led`, `px`, `frame` of the acting request)
are read from the state. -/
inductive Instr where
  /-- `SYM0` and `SYM1`, R51 -/
  | sym0 | sym1
  /-- the eight entries of `LUT_H`, R70 -/
  | lutH0 | lutH1 | lutH2 | lutH3 | lutH4 | lutH5 | lutH6 | lutH7
  /-- the four entries of `LUT_M`, R71 -/
  | lutM0 | lutM1 | lutM2 | lutM3
  /-- the eight entries of `LUT_L`, R72 -/
  | lutL0 | lutL1 | lutL2 | lutL3 | lutL4 | lutL5 | lutL6 | lutL7
  /-- `LUT_H` of a key, R70 -/
  | lutH (k : Key3)
  /-- `LUT_M` of a key, R71 -/
  | lutM (k : Key2)
  /-- `LUT_L` of a key, R72 -/
  | lutL (k : Key3)
  /-- `ENC_CH` of a channel value, R74 -/
  | encCh (v : Byte)
  /-- `ENC_PX` of three channel values in role order red, green, blue, R76 -/
  | encPx (ch0 ch1 ch2 : Byte)
  /-- `SLOT_WR`, R91 -/
  | slotWr
  /-- `BUF_RD`, R93 -/
  | bufRd
  /-- `COMPOSE`, R100 -/
  | compose
  /-- `XMIT`, R102 -/
  | xmit
  /-- `LOCK_ACQ`, R112 -/
  | lockAcq
  /-- `LOCK_REL`, R113 -/
  | lockRel
  /-- `UPDATE`, R110; `led` is a natural number, as in the record of R55 -/
  | update (led : Nat) (ch0 ch1 ch2 : Byte)
  /-- `BRINGUP`, R152, with the record of R57 -/
  | bringup (chipCount channelsPerLed bytesPerLedCommand found : Nat)
  deriving DecidableEq, Repr

/-- Where an operation is presented. The spec gives no opcode field (30_encoding.md R55, section 7): each row's bits
are the operands of one operation, so a word means something only at its port. DESIGN CHOICE, safe; log entry 14. -/
inductive Port where
  | symbol
  | entryH | entryM | entryL
  | keyH | keyM | keyL
  | channel | pixel
  | slotWr | bufRd | compose | xmit | lockAcq | lockRel
  | request
  deriving DecidableEq, Repr

/-- How many bits the table gives the words of a port (the length of the row's pattern in spec/opcode_table.json). -/
def Port.width : Port → Nat
  | .symbol => 1
  | .entryH | .keyH => 3
  | .entryM | .keyM => 2
  | .entryL | .keyL => 3
  | .channel => 8
  | .pixel => 24
  | .slotWr | .bufRd | .compose | .xmit | .lockAcq | .lockRel => 0
  | .request => 32

/-- One presented operation: a word at a port, or one of the two records that the spec defines beside the words
(30_encoding.md R55 for UPDATE, R57 for BRINGUP). -/
inductive Message where
  /-- the bits `w` at port `p`, bit 0 the least significant -/
  | word (p : Port) (w : Nat)
  /-- the request as a record; it has no limit on `led` (30_encoding.md R55) -/
  | updateRecord (led : Nat) (ch0 ch1 ch2 : Byte)
  /-- the bring-up record, for which no bit layout is defined (30_encoding.md R57) -/
  | bringupRecord (chipCount channelsPerLed bytesPerLedCommand found : Nat)
  /-- bits of a length that no port has -/
  | noPort (nbits w : Nat)
  deriving DecidableEq, Repr

end Sys2Proof
end

