-- ==== Sys2Proof/WellFormed.lean ====
section
/-! DEFINITION. Which operations have a word of the table: the request word addresses `N_MAX = 256` positions
(30_encoding.md R55), and `BRINGUP` has no bit layout at all (R57). Every other operand is bounded by its type. -/

namespace Sys2Proof

/-- The 32-bit request word has 8 bits for `led` (30_encoding.md R55). -/
def Instr.ledFitsWord : Instr → Bool
  | .update led _ _ _ => led < Config.maxWordChips
  | _ => true

/-- `BRINGUP` is a record and has no word (30_encoding.md R57). -/
def Instr.hasWord : Instr → Bool
  | .bringup _ _ _ _ => false
  | _ => true

/-- The operation can be presented as a word at a port. An operation that cannot is presented as a record. -/
def Instr.WellFormed (i : Instr) : Bool := i.ledFitsWord && i.hasWord

end Sys2Proof
end

