-- ==== Sys2Proof/Decode.lean ====
section
/-! DEFINITION. The decoder and the encoder of presented operations, written from the patterns of
spec/opcode_table.json and from 30_encoding.md R51, R53, R55 and R57. -/

namespace Sys2Proof

/-- Why a presented operation is not one of the block. -/
inductive DecodeError where
  /-- the word has a bit above the width of its port -/
  | wordTooWide
  /-- no port has words of this length -/
  | noSuchPort
  deriving DecidableEq, Repr

/-- The entry of `LUT_H` that a key pattern selects (opcode table rows `LUT_H[0]` to `LUT_H[7]`). -/
def entryHOf : Nat → Instr
  | 0 => .lutH0 | 1 => .lutH1 | 2 => .lutH2 | 3 => .lutH3
  | 4 => .lutH4 | 5 => .lutH5 | 6 => .lutH6 | _ => .lutH7

/-- The entry of `LUT_M` that a key pattern selects (opcode table rows `LUT_M[0]` to `LUT_M[3]`). -/
def entryMOf : Nat → Instr
  | 0 => .lutM0 | 1 => .lutM1 | 2 => .lutM2 | _ => .lutM3

/-- The entry of `LUT_L` that a key pattern selects (opcode table rows `LUT_L[0]` to `LUT_L[7]`). -/
def entryLOf : Nat → Instr
  | 0 => .lutL0 | 1 => .lutL1 | 2 => .lutL2 | 3 => .lutL3
  | 4 => .lutL4 | 5 => .lutL5 | 6 => .lutL6 | _ => .lutL7

/-- The symbol row that a logical bit selects (30_encoding.md R51). -/
def symbolOf : Nat → Instr
  | 0 => .sym0 | _ => .sym1

/-- Byte number `k` of a word, byte 0 the least significant. -/
def byteOf (k w : Nat) : Byte := BitVec.ofNat 8 (w / 256 ^ k)

/-- What a word of the right width means at a port. The request word is `led[31:24] ch0[23:16] ch1[15:8] ch2[7:0]`
(30_encoding.md R55); the pixel word is `ch0[23:16] ch1[15:8] ch2[7:0]`. -/
def readWord (p : Port) (w : Nat) : Instr :=
  match p with
  | .symbol => symbolOf w
  | .entryH => entryHOf w
  | .entryM => entryMOf w
  | .entryL => entryLOf w
  | .keyH => .lutH (BitVec.ofNat 3 w)
  | .keyM => .lutM (BitVec.ofNat 2 w)
  | .keyL => .lutL (BitVec.ofNat 3 w)
  | .channel => .encCh (byteOf 0 w)
  | .pixel => .encPx (byteOf 2 w) (byteOf 1 w) (byteOf 0 w)
  | .slotWr => .slotWr
  | .bufRd => .bufRd
  | .compose => .compose
  | .xmit => .xmit
  | .lockAcq => .lockAcq
  | .lockRel => .lockRel
  | .request => .update (w / 256 ^ 3) (byteOf 2 w) (byteOf 1 w) (byteOf 0 w)

/-- The decoder: total, and it rejects by name. -/
def decode : Message → Except DecodeError Instr
  | .word p w => if w < 2 ^ p.width then .ok (readWord p w) else .error .wordTooWide
  | .updateRecord led ch0 ch1 ch2 => .ok (.update led ch0 ch1 ch2)
  | .bringupRecord n c b found => .ok (.bringup n c b found)
  | .noPort _ _ => .error .noSuchPort

/-- The pixel word: red, green, blue, red in the highest byte (opcode table row `ENC_PX`). -/
def pixelWord (ch0 ch1 ch2 : Byte) : Nat :=
  ch0.toNat * 256 ^ 2 + ch1.toNat * 256 + ch2.toNat

/-- The request word of 30_encoding.md R55. -/
def requestWord (led : Nat) (ch0 ch1 ch2 : Byte) : Nat :=
  led * 256 ^ 3 + pixelWord ch0 ch1 ch2

/-- The encoder: the word of a well-formed operation at its port, and the record of the operations that have no word. -/
def encode : Instr → Message
  | .sym0 => .word .symbol 0
  | .sym1 => .word .symbol 1
  | .lutH0 => .word .entryH 0
  | .lutH1 => .word .entryH 1
  | .lutH2 => .word .entryH 2
  | .lutH3 => .word .entryH 3
  | .lutH4 => .word .entryH 4
  | .lutH5 => .word .entryH 5
  | .lutH6 => .word .entryH 6
  | .lutH7 => .word .entryH 7
  | .lutM0 => .word .entryM 0
  | .lutM1 => .word .entryM 1
  | .lutM2 => .word .entryM 2
  | .lutM3 => .word .entryM 3
  | .lutL0 => .word .entryL 0
  | .lutL1 => .word .entryL 1
  | .lutL2 => .word .entryL 2
  | .lutL3 => .word .entryL 3
  | .lutL4 => .word .entryL 4
  | .lutL5 => .word .entryL 5
  | .lutL6 => .word .entryL 6
  | .lutL7 => .word .entryL 7
  | .lutH k => .word .keyH k.toNat
  | .lutM k => .word .keyM k.toNat
  | .lutL k => .word .keyL k.toNat
  | .encCh v => .word .channel v.toNat
  | .encPx ch0 ch1 ch2 => .word .pixel (pixelWord ch0 ch1 ch2)
  | .slotWr => .word .slotWr 0
  | .bufRd => .word .bufRd 0
  | .compose => .word .compose 0
  | .xmit => .word .xmit 0
  | .lockAcq => .word .lockAcq 0
  | .lockRel => .word .lockRel 0
  | .update led ch0 ch1 ch2 =>
    if led < Config.maxWordChips then .word .request (requestWord led ch0 ch1 ch2)
    else .updateRecord led ch0 ch1 ch2
  | .bringup n c b found => .bringupRecord n c b found

/-- The message that stands for a bare word of `nbits` bits, `nbits` in whole bytes. The table's rows of one length
belong to different ports, and a bare word does not name its port: it is read as the FIRST row of the table, in the
table's order, whose pattern, with zeros above it, is the word (8 bits: SYM0, SYM1, LUT_H[2] to LUT_H[7], then ENC_CH;
no bits: SLOT_WR). DESIGN CHOICE; log entry 15. -/
def tableMessage (nbits w : Nat) : Message :=
  if nbits = 32 then .word .request w
  else if nbits = 24 then .word .pixel w
  else if nbits = 8 then
    if w < 2 then .word .symbol w else if w < 8 then .word .entryH w else .word .channel w
  else if nbits = 0 then .word .slotWr w
  else .noPort nbits w

/-- The operation that the decoder reads from a bare word of the opcode table. -/
def decodeTableWord (nbits w : Nat) : Option Instr :=
  match decode (tableMessage nbits w) with
  | .ok i => some i
  | .error _ => none

end Sys2Proof
end

