-- ==== Sys2Proof/Machine/State.lean ====
section
/-! DEFINITION. The state of one chain context (10_state.md) as plain data, the reasons a step can stop, and the
state after reset. Fields that are the model's own and not the spec's say so. -/

namespace Sys2Proof.Machine

/-- The 3-byte waveform of one channel value, `b0` transmitted first (00_scope.md glossary, 30_encoding.md R52). -/
structure EncodedChannel where
  b0 : Byte
  b1 : Byte
  b2 : Byte
  deriving DecidableEq, Repr

/-- The 9-byte waveform of one LED in wire order: green, red, blue (20_memory.md R33, R39). -/
structure EncodedPixel where
  green : EncodedChannel
  red   : EncodedChannel
  blue  : EncodedChannel
  deriving DecidableEq, Repr

/-- The topology descriptor `(N, C, B)` (00_scope.md R4, 10_state.md R15). -/
structure Topology where
  chipCount           : Nat
  channelsPerLed      : Nat
  bytesPerLedCommand  : Nat
  deriving DecidableEq, Repr

/-- One addressable LED; it owns no buffer (10_state.md R16). -/
structure Endpoint where
  chipId : Nat
  deriving DecidableEq, Repr

/-- The transport's failure value (92_eei_decisions.md D11): a numbered value that no operation inspects.
DESIGN CHOICE, safe; log entry 12. -/
structure TransportErr where
  code : Nat
  deriving DecidableEq, Repr

/-- What the transport answers to a frame write (60_exceptions.md R139). -/
inductive TransportAnswer where
  | ok
  | fail (e : TransportErr)
  deriving DecidableEq, Repr

/-- What the environment answers when a request asks for its frame's storage (43_update.md R114). -/
inductive AllocAnswer where
  | ok
  | fail
  deriving DecidableEq, Repr

/-- The result of an `UPDATE` (10_state.md R17). -/
inductive Status where
  | ok
  | allocationFailure
  | transmissionFailure (e : TransportErr)
  deriving DecidableEq, Repr

/-- The result of a `BRINGUP` (30_encoding.md R57). -/
inductive BringupResult where
  | up
  | configurationMismatch
  deriving DecidableEq, Repr

/-- The single exclusion primitive: free, or held by the request it names (10_state.md R11). -/
inductive Lock where
  | free
  | held (q : Nat)
  deriving DecidableEq, Repr

/-- What a request does next (10_state.md R14). -/
inductive Phase where
  | idle | check | wait | held | send | rel | done
  deriving DecidableEq, Repr

/-- The operands of one `UPDATE` (10_state.md R12): channel 0 red, 1 green, 2 blue. -/
structure ReqLatch where
  led : Nat
  ch0 : Byte
  ch1 : Byte
  ch2 : Byte
  deriving DecidableEq, Repr

/-- The values of one request (10_state.md R12, R13, R14, R17). `slotDone` is the model's own: this request's
`SLOT_WR` has been done, the precondition of `COMPOSE` (42_composer.md R100; log entry 9). -/
structure Request where
  phase    : Phase
  req      : Option ReqLatch
  px       : Option EncodedPixel
  slotDone : Bool
  frame    : Option (List Byte)
  status   : Option Status
  deriving DecidableEq, Repr

/-- A request that has not been made (10_state.md R14, R24). -/
def Request.idle : Request :=
  { phase := .idle, req := none, px := none, slotDone := false, frame := none, status := none }

/-- One transport write in the model-only history (10_state.md R19). -/
structure WireEntry where
  q       : Nat
  frame   : List Byte
  outcome : TransportAnswer
  deriving DecidableEq, Repr

/-- One critical section in lock order (20_memory.md R41), the model's own history (log entry 19): the request that
took the lock and the operands it holds. -/
structure CriticalSection where
  q   : Nat
  req : ReqLatch
  deriving DecidableEq, Repr

/-- What the last operation answered its invoker: the model's own observation port, which no operation reads.
DESIGN CHOICE, safe; log entry 1. -/
inductive Result where
  /-- nothing has answered yet -/
  | none
  /-- the operation was not enabled: no step of the block -/
  | noStep
  /-- the operation is waiting for the lock or for the transport -/
  | waiting
  /-- the operation is done and has no result value -/
  | done
  | symbol (v : Symbol)
  | byte (b : Byte)
  | bytes (bs : List Byte)
  | transport (r : TransportAnswer)
  | status (st : Status)
  | bringup (r : BringupResult)
  deriving DecidableEq, Repr

/-- What the acting agent does in its turn. -/
inductive Act where
  /-- presents an operation of the opcode table -/
  | present (m : Message)
  /-- invokes `UPDATE` and does no further step (43_update.md R118) -/
  | invoke (led : Nat) (ch0 ch1 ch2 : Byte)
  /-- takes the next small step of its request (43_update.md section 3) -/
  | advance
  /-- the reset event (70_reset_and_hazards.md R150) -/
  | reset
  deriving DecidableEq, Repr

/-- One turn of the environment's schedule: whose agent moves, what the frame resource and the transport answer if
they are asked during the turn (`tx = none`: the transport has not answered yet), and what is done (log entries 2, 3). -/
structure Turn where
  agent : Nat
  alloc : AllocAnswer
  tx    : Option TransportAnswer
  act   : Act
  deriving DecidableEq, Repr

/-- The state of one chain context. The fields down to `wire` are the spec's (10_state.md section 1); the others are
the model's own. -/
structure State where
  up        : Bool
  topo      : Option Topology
  endpoints : List Endpoint
  /-- the Chip Command Buffer: its cells, addresses rising; an address that is not listed does not exist -/
  buf       : List Host.Cell
  lock      : Lock
  /-- the requests that have been made, names rising; a name that is not listed is a request in `IDLE` -/
  reqs      : List (Nat × Request)
  wire      : List WireEntry
  /-- model's own: the critical sections in lock order -/
  order     : List CriticalSection
  /-- model's own: which chain context this is; no step changes it (20_memory.md R44; log entry 22) -/
  chain     : Nat
  /-- model's own: how many bring-ups have drawn `BUF_RESET` -/
  draws     : Nat
  /-- model's own: the request whose agent takes the present turn -/
  agent     : Nat
  /-- model's own: the frame resource's answer during the present turn -/
  alloc     : AllocAnswer
  /-- model's own: the transport's answer during the present turn -/
  tx        : Option TransportAnswer
  /-- model's own: the turns to come -/
  agenda    : List Turn
  /-- model's own: what the last operation answered -/
  result    : Result
  deriving DecidableEq, Repr

/-- The reasons the machine stops with a fault. -/
inductive Fault where
  /-- Raised by `SLOT_WR`, `BUF_RD`, `COMPOSE` and the operations that contain them (`UPDATE`, a small step) on an
  address that does not exist (20_memory.md R40). Safe: no state that satisfies the invariant raises it. -/
  | outOfBuffer
  deriving DecidableEq, Repr

/-- The reasons the machine gives a case no meaning. -/
inductive Refusal where
  /-- Raised by `exec` for a row of the opcode table that has no meaning yet. Safe. -/
  | notModelled (mnemonic : String)
  /-- Raised by `step` for a presented word that no port of the block takes. Safe. -/
  | malformed
  /-- Raised by `step` for a reset while a request is in progress (70_reset_and_hazards.md R151). Safe. -/
  | resetInProgress
  deriving DecidableEq, Repr

/-- The machine right after reset (70_reset_and_hazards.md R150; 10_state.md R23, R24). The model's own fields stand
at the values of log entries 1, 2, 3, 11, 19 and 22. -/
def State.reset : State :=
  { up := false, topo := none, endpoints := [], buf := [], lock := .free, reqs := [], wire := [],
    order := [], chain := 0, draws := 0, agent := 0, alloc := .ok, tx := none, agenda := [], result := .none }

end Sys2Proof.Machine
end

