-- ==== Sys2Proof/Machine/Flags.lean ====
section
/-! DEFINITION. The block has no condition codes (10_state.md R17); what it has instead are the result values of
`UPDATE` and `BRINGUP`, computed and coded here (60_exceptions.md R130, 30_encoding.md R56). -/

namespace Sys2Proof.Machine

/-- The status that a transport answer gives its request, the failure value verbatim (43_update.md R116). -/
def TransportAnswer.toStatus : TransportAnswer → Status
  | .ok => .ok
  | .fail e => .transmissionFailure e

/-- The 2-bit response code of a status (30_encoding.md R56). -/
def Status.code : Status → BitVec 2
  | .ok => 0#2
  | .allocationFailure => 1#2
  | .transmissionFailure _ => 2#2

/-- The transport's failure value, which follows the code when the code is 2 (30_encoding.md R56). -/
def Status.failureValue : Status → Option TransportErr
  | .transmissionFailure e => some e
  | _ => none

/-- The code of a bring-up's result: 3 for ConfigurationMismatch (60_exceptions.md R130), none for `Up`. -/
def BringupResult.code : BringupResult → Option (BitVec 2)
  | .up => none
  | .configurationMismatch => some 3#2

/-- The answer a request gets from the frame resource: always `ok` where `ALLOC_CAN_FAIL` is false
(92_eei_decisions.md D8). -/
def effectiveAlloc (a : AllocAnswer) : AllocAnswer := if Config.allocCanFail then a else .ok

/-- The request has been made and has not ended (70_reset_and_hazards.md R151: between CHECK and DONE). -/
def Phase.inProgress : Phase → Bool
  | .idle | .done => false
  | _ => true

/-- A request in this phase holds the lock (43_update.md R111). -/
def Phase.holdsLock : Phase → Bool
  | .held | .send | .rel => true
  | _ => false

end Sys2Proof.Machine
end

