-- ==== Sys2Proof/Machine/Operands.lean ====
section
/-! DEFINITION. Operand assembly and the encoder's data path (30_encoding.md, 40_encoder.md): symbols, table keys, the
three lookup tables, the channel and pixel encoders, the bit streams they stand for, and the model-only inverse. -/

namespace Sys2Proof.Machine

/-- The symbol of one logical bit: a one, the bit, a zero, earliest bit first (30_encoding.md R51). -/
def symbolBits (d : Bool) : List Bool := [true, d, false]

/-- A symbol as a 3-bit number, its earliest bit as bit 2 (30_encoding.md R51, the table's last column). -/
def symbolNumber (d : Bool) : Symbol := if d then 6#3 else 4#3

/-- `LUT_H`, the constant table of 40_encoder.md R70. -/
def lutHTable : Vector Byte 8 :=
  #v[0x92#8, 0x93#8, 0x9A#8, 0x9B#8, 0xD2#8, 0xD3#8, 0xDA#8, 0xDB#8]

/-- `LUT_M`, the constant table of 40_encoder.md R71. -/
def lutMTable : Vector Byte 4 := #v[0x49#8, 0x4D#8, 0x69#8, 0x6D#8]

/-- `LUT_L`, the constant table of 40_encoder.md R72. -/
def lutLTable : Vector Byte 8 :=
  #v[0x24#8, 0x26#8, 0x34#8, 0x36#8, 0xA4#8, 0xA6#8, 0xB4#8, 0xB6#8]

/-- `LUT_H(k)` (40_encoder.md R70). -/
def lutH (k : Key3) : Byte := lutHTable[k.toFin]

/-- `LUT_M(k)` (40_encoder.md R71). -/
def lutM (k : Key2) : Byte := lutMTable[k.toFin]

/-- `LUT_L(k)` (40_encoder.md R72). -/
def lutL (k : Key3) : Byte := lutLTable[k.toFin]

/-- `kH = v[7:5] = v >> 5` (30_encoding.md R53). -/
def keyH (v : Byte) : Key3 := (v >>> 5).setWidth 3

/-- `kM = v[4:3] = (v >> 3) & 0x3` (30_encoding.md R53). -/
def keyM (v : Byte) : Key2 := ((v >>> 3) &&& 0x3#8).setWidth 2

/-- `kL = v[2:0] = v & 0x7` (30_encoding.md R53). -/
def keyL (v : Byte) : Key3 := (v &&& 0x7#8).setWidth 3

/-- `ENC_CH(v)` (40_encoder.md R74). -/
def encodeChannel (v : Byte) : EncodedChannel := ⟨lutH (keyH v), lutM (keyM v), lutL (keyL v)⟩

/-- The bytes of an EncodedChannel, the earliest first (20_memory.md R32). -/
def EncodedChannel.bytes (e : EncodedChannel) : List Byte := [e.b0, e.b1, e.b2]

/-- `ENC_PX(ch0, ch1, ch2) = ENC_CH(ch1) ++ ENC_CH(ch0) ++ ENC_CH(ch2)` (40_encoder.md R76). -/
def encodePixel (ch0 ch1 ch2 : Byte) : EncodedPixel :=
  ⟨encodeChannel ch1, encodeChannel ch0, encodeChannel ch2⟩

/-- The nine bytes of an EncodedPixel in wire order (20_memory.md R39). -/
def EncodedPixel.bytes (p : EncodedPixel) : List Byte := p.green.bytes ++ p.red.bytes ++ p.blue.bytes

/-- The pixel of a request's operands (43_update.md R115). -/
def ReqLatch.pixel (l : ReqLatch) : EncodedPixel := encodePixel l.ch0 l.ch1 l.ch2

/-- The eight bits of a byte, most significant first (00_scope.md R6, 20_memory.md R31). -/
def byteBits (b : Byte) : List Bool :=
  [b.getLsbD 7, b.getLsbD 6, b.getLsbD 5, b.getLsbD 4, b.getLsbD 3, b.getLsbD 2, b.getLsbD 1, b.getLsbD 0]

/-- The bit stream of a byte sequence, earliest bit first (00_scope.md R6). -/
def streamOf (bs : List Byte) : List Bool := bs.flatMap byteBits

/-- `Stream(v)`: the symbols of `v[7]` down to `v[0]` (40_encoder.md R73). -/
def channelStream (v : Byte) : List Bool := (byteBits v).flatMap symbolBits

/-- The inverse of `symbolBits`, on the two symbols only (40_encoder.md R75). -/
def decodeSymbol : List Bool → Option Bool
  | [true, false, false] => some false
  | [true, true, false] => some true
  | _ => none

/-- The byte whose bits are given, most significant first. -/
def byteOfBits (bs : List Bool) : Byte := BitVec.ofNat 8 (bs.foldl (fun n d => 2 * n + d.toNat) 0)

/-- A bit stream cut into groups of three from stream index 0. -/
def groupsOfThree : List Bool → List (List Bool)
  | x :: y :: z :: rest => [x, y, z] :: groupsOfThree rest
  | _ => []

/-- `DEC_CH`, a test device and no operation of the block (40_encoder.md R75): `none` where a 3-bit group is no
symbol. -/
def decodeChannel (e : EncodedChannel) : Option Byte :=
  ((groupsOfThree (streamOf e.bytes)).mapM decodeSymbol).map byteOfBits

end Sys2Proof.Machine
end

