-- ==== Sys2Proof/Machine/Ops.lean ====
section
/-! DEFINITION. The named operations over the buffer, the requests and the lock, and the small steps of a request
(43_update.md section 3), each the identity where its precondition does not hold (log entry 4). -/

namespace Sys2Proof.Machine

/-- What a step answers. -/
abbrev Step := Host.Outcome State Fault Refusal

/-- Goes on from a next state; a fault and a refusal stop. -/
def andThen (o : Step) (f : State → Step) : Step :=
  match o with
  | .next s => f s
  | .fault r => .fault r
  | .refused r => .refused r

/-! ### The Chip Command Buffer -/

/-- A byte memory: its cells, addresses rising. -/
abbrev Memory := List Host.Cell

/-- `buf[a]`; `none`: the address does not exist. -/
def Memory.read : Memory → Nat → Option Byte
  | [], _ => none
  | (k, b) :: m, a => if k = a then some b else Memory.read m a

/-- `buf[a] <- v`; `none`: the address does not exist. -/
def Memory.put : Memory → Nat → Byte → Option Memory
  | [], _, _ => none
  | (k, b) :: m, a, v => if k = a then some ((k, v) :: m) else (Memory.put m a v).map ((k, b) :: ·)

/-- `MemRead(a, n)`: the bytes `buf[a] .. buf[a+n-1]`, lowest address first (00_scope.md R6). -/
def Memory.readBytes (m : Memory) (a : Nat) : Nat → Option (List Byte)
  | 0 => some []
  | n + 1 =>
    match m.read a, Memory.readBytes m (a + 1) n with
    | some b, some bs => some (b :: bs)
    | _, _ => none

/-- `MemWrite(a, n, v)`: `buf[a+j] <- v[j]` for every byte of `v`, all or none (00_scope.md R6). -/
def Memory.writeBytes (m : Memory) (a : Nat) : List Byte → Option Memory
  | [] => some m
  | v :: vs =>
    match m.put a v with
    | some m' => Memory.writeBytes m' (a + 1) vs
    | none => none

/-- The canonical form: addresses strictly rising. An unlisted address holds no value, so no entry can repeat it. -/
def Memory.wf : Memory → Bool
  | [] => true
  | [_] => true
  | (a, _) :: (b, x) :: m => decide (a < b) && Memory.wf ((b, x) :: m)

/-- `n` cells from address `a` with the contents `BUF_RESET` of bring-up `draw` of chain context `chain`
(10_state.md R22). -/
def Memory.fresh (chain draw a : Nat) : Nat → Memory
  | 0 => []
  | n + 1 => (a, Config.bufReset chain draw a) :: Memory.fresh chain draw (a + 1) n

/-- `L = N * B`, the length of the buffer; 0 before bring-up (00_scope.md R4). -/
def State.bufLength (s : State) : Nat :=
  match s.topo with
  | some t => t.chipCount * t.bytesPerLedCommand
  | none => 0

/-- The effective address of byte 0 of slot `i`: `9 * i` (41_buffer.md R90). -/
def slotAddress (i : Nat) : Nat := Config.slotBytes * i

/-- `BUF_RD() = MemRead(0, L)` (41_buffer.md R93). -/
def State.wholeBuffer (s : State) : Option (List Byte) := Memory.readBytes s.buf 0 s.bufLength

/-- `{ 0x00 } ++ bytes ++ { 0x00 }` (42_composer.md R100). -/
def padFrame (bs : List Byte) : List Byte := Config.pad :: (bs ++ [Config.pad])

/-! ### The requests -/

/-- The values of request `q`; a request that is not listed has not been made. -/
def Requests.get : List (Nat × Request) → Nat → Request
  | [], _ => .idle
  | (k, r) :: rs, q => if k = q then r else Requests.get rs q

/-- Request `q` takes the values `r`; the names stay rising. -/
def Requests.set : List (Nat × Request) → Nat → Request → List (Nat × Request)
  | [], q, r => [(q, r)]
  | (k, x) :: rs, q, r =>
    if q < k then (q, r) :: (k, x) :: rs
    else if k = q then (q, r) :: rs
    else (k, x) :: Requests.set rs q r

/-- The values of request `q` (10_state.md R12 to R14). -/
def State.request (s : State) (q : Nat) : Request := Requests.get s.reqs q

/-- `phase(q)` (10_state.md R14). -/
def State.phase (s : State) (q : Nat) : Phase := (s.request q).phase

/-- Request `q` takes the values `r`. -/
def State.setRequest (s : State) (q : Nat) (r : Request) : State :=
  { s with reqs := Requests.set s.reqs q r }

/-- `lock <- l` (10_state.md R11). -/
def State.setLock (s : State) (l : Lock) : State := { s with lock := l }

/-- The buffer takes the cells `m`. -/
def State.setBuf (s : State) (m : List Host.Cell) : State := { s with buf := m }

/-- `wire <- wire ++ [w]` (42_composer.md R102). -/
def State.appendWire (s : State) (w : WireEntry) : State := { s with wire := s.wire ++ [w] }

/-- The critical sections `cs` come last in the lock order (20_memory.md R41). -/
def State.appendOrder (s : State) (cs : List CriticalSection) : State := { s with order := s.order ++ cs }

/-- A request name that no request has used. -/
def State.freshName (s : State) : Nat := s.reqs.foldl (fun n e => max n (e.1 + 1)) 0

/-- Some request is between CHECK and DONE (70_reset_and_hazards.md R151). -/
def State.anyInProgress (s : State) : Bool := s.reqs.any fun e => e.2.phase.inProgress

/-- The operation's answer to its invoker (log entry 1). -/
def State.answers (s : State) (r : Result) : State := { s with result := r }

/-- The end of request `q`, with or without an error: `phase(q) <- DONE`, `status(q)` available to the requester, and
the values that exist only while the request is in progress are gone (60_exceptions.md R136, 10_state.md R13, R26).
This is all that taking an error does: nothing is saved, no mode changes, control goes nowhere; and there is no return
operation (R137). -/
def State.endRequest (s : State) (q : Nat) (st : Option Status) : State :=
  s.setRequest q { Request.idle with phase := .done, status := st }

/-! ### The small steps of a request -/

/-- Invocation, `IDLE -> CHECK` (43_update.md R118); `none`: it cannot be made, because the block is down, no endpoint
has the index `led` (30_encoding.md R58) or the name `q` is taken. -/
def invoke (s : State) (q led : Nat) (ch0 ch1 ch2 : Byte) : Option State :=
  if s.up = true ∧ s.phase q = .idle then
    match s.endpoints[led]? with
    | some ep =>
      some (s.setRequest q { Request.idle with phase := .check, req := some ⟨ep.chipId, ch0, ch1, ch2⟩ })
    | none => none
  else none

/-- The frame resource check, `CHECK -> WAIT` or `CHECK -> DONE` (43_update.md R114). -/
def checkFrame (s : State) (q : Nat) : State :=
  if s.phase q = .check then
    match effectiveAlloc s.alloc with
    | .ok => s.setRequest q { s.request q with phase := .wait }
    | .fail => s.endRequest q (some .allocationFailure)
  else s

/-- `LOCK_ACQ` by request `q` is enabled (43_update.md R112). -/
abbrev State.canAcquire (s : State) (q : Nat) : Prop := s.lock = .free ∧ s.phase q = .wait

/-- `lock <- held(q); phase(q) <- HELD` (43_update.md R112), and the critical section enters the lock order
(20_memory.md R41). -/
def acquire (s : State) (q : Nat) : State :=
  if s.canAcquire q then
    ((s.setRequest q { s.request q with phase := .held }).setLock (.held q)).appendOrder
      ((s.request q).req.map (CriticalSection.mk q)).toList
  else s

/-- Request `q` holds the lock and is in phase `ph`. -/
abbrev State.holdsIn (s : State) (q : Nat) (ph : Phase) : Prop := s.lock = .held q ∧ s.phase q = ph

/-- `px(q) <- ENC_PX(req.ch[0], req.ch[1], req.ch[2])` (43_update.md R115). -/
def latchPixel (s : State) (q : Nat) : State :=
  if s.holdsIn q .held then
    match (s.request q).req with
    | some l => s.setRequest q { s.request q with px := some l.pixel }
    | none => s
  else s

/-- `SLOT_WR` by request `q` is enabled (41_buffer.md R91): it holds the lock in HELD and has its operands. -/
abbrev State.canWriteSlot (s : State) (q : Nat) : Prop :=
  s.holdsIn q .held ∧ (s.request q).req.isSome ∧ (s.request q).px.isSome

/-- `MemWrite(9 * led, 9, px)` (41_buffer.md R91). -/
def writeSlot (s : State) (q : Nat) : Step :=
  if s.holdsIn q .held then
    match (s.request q).req, (s.request q).px with
    | some l, some p =>
      match Memory.writeBytes s.buf (slotAddress l.led) p.bytes with
      | some m => .next ((s.setRequest q { s.request q with slotDone := true }).setBuf m)
      | none => .fault .outOfBuffer
    | _, _ => .next s
  else .next s

/-- `COMPOSE` by request `q` is enabled (42_composer.md R100). -/
abbrev State.canCompose (s : State) (q : Nat) : Prop := s.holdsIn q .held ∧ (s.request q).slotDone = true

/-- `frame(q) <- { 0x00 } ++ BUF_RD() ++ { 0x00 }` (42_composer.md R100). -/
def composeFrame (s : State) (q : Nat) : Step :=
  if s.canCompose q then
    match s.wholeBuffer with
    | some bs => .next (s.setRequest q { s.request q with frame := some (padFrame bs) })
    | none => .fault .outOfBuffer
  else .next s

/-- The transport write of request `q` can begin (42_composer.md R102): HELD with the frame composed. -/
abbrev State.canBeginWrite (s : State) (q : Nat) : Prop := s.holdsIn q .held ∧ (s.request q).frame.isSome

/-- `Transport.write(frame(q))` begins; `phase(q) <- SEND` (43_update.md R115). -/
def beginWrite (s : State) (q : Nat) : State :=
  if s.canBeginWrite q then s.setRequest q { s.request q with phase := .send } else s

/-- The transport's answer, `SEND -> REL`, if it has answered (43_update.md R116). -/
def takeAnswer (s : State) (q : Nat) : State :=
  if s.holdsIn q .send then
    match s.tx, (s.request q).frame with
    | some r, some f =>
      (s.setRequest q { s.request q with phase := .rel, status := some r.toStatus }).appendWire ⟨q, f, r⟩
    | _, _ => s
  else s

/-- `lock <- free; phase(q) <- DONE; status(q) available` (43_update.md R113, R117). -/
def release (s : State) (q : Nat) : State :=
  if s.holdsIn q .rel then (s.endRequest q (s.request q).status).setLock .free else s

/-- The work under the lock, `HELD -> SEND`, as one step (43_update.md R115). -/
def work (s : State) (q : Nat) : Step :=
  andThen (writeSlot (latchPixel s q) q) fun s1 =>
    andThen (composeFrame s1 q) fun s2 => .next (beginWrite s2 q)

/-- What request `q` reports to its requester after a step of it: its status in DONE (10_state.md R17). -/
def State.report (s : State) (q : Nat) : Result :=
  match s.phase q with
  | .idle => .noStep
  | .wait | .send => .waiting
  | .done =>
    match (s.request q).status with
    | some st => .status st
    | none => .done
  | _ => .done

/-- Answers with the report of request `q`. -/
def State.reporting (s : State) (q : Nat) : State := s.answers (s.report q)

/-- The next small step of request `q` (43_update.md section 3). In IDLE and in DONE there is none; in WAIT and in SEND
it waits for the lock and for the transport. -/
def advance (s : State) (q : Nat) : Step :=
  match s.phase q with
  | .idle | .done => .next (s.answers .noStep)
  | .check => .next ((checkFrame s q).reporting q)
  | .wait => .next ((acquire s q).reporting q)
  | .held => andThen (work s q) fun s' => .next (s'.reporting q)
  | .send => .next ((takeAnswer s q).reporting q)
  | .rel => .next ((release s q).reporting q)

/-- The reset event (70_reset_and_hazards.md R150), admitted only when no request is in progress (R151). Which
chain context it is, the counter of the free value and the environment's schedule are not the block's and stay (log
entries 11, 20 and 22). -/
def resetEvent (s : State) : Step :=
  if s.anyInProgress then .refused .resetInProgress
  else .next { State.reset with chain := s.chain, draws := s.draws, agenda := s.agenda }

end Sys2Proof.Machine
end

