-- ==== Sys2Proof/Machine/Bringup.lean ====
section
/-! DEFINITION. Bring-up (70_reset_and_hazards.md section 2). -/

namespace Sys2Proof.Machine

/-- The descriptor is supported: `N >= 1`, `C = 3`, `B = 9` (00_scope.md R5). -/
def Topology.supported (t : Topology) : Bool :=
  t.chipCount != 0 && t.channelsPerLed == Config.channels && t.bytesPerLedCommand == Config.slotBytes

/-- The block comes up with the descriptor `t`: `buf` of length `N * B` with the contents `BUF_RESET`, the lock free,
one endpoint per position (70_reset_and_hazards.md R152). -/
def comeUp (t : Topology) (s : State) : State :=
  { s with
    topo := some t
    buf := Memory.fresh s.chain s.draws 0 (t.chipCount * t.bytesPerLedCommand)
    lock := .free
    endpoints := (List.range t.chipCount).map Endpoint.mk
    up := true
    draws := s.draws + 1 }

/-- `BRINGUP(N, C, B, found)` (70_reset_and_hazards.md R152). While the block is up it cannot be invoked: no step (R155;
log entry 6). On ConfigurationMismatch nothing is created (60_exceptions.md R131). -/
def execBringup (n c b found : Nat) (s : State) : Step :=
  if s.up = true then .next (s.answers .noStep)
  else if (Topology.mk n c b).supported = false then .next (s.answers (.bringup .configurationMismatch))
  else if found ≠ n then .next (s.answers (.bringup .configurationMismatch))
  else .next ((comeUp ⟨n, c, b⟩ s).answers (.bringup .up))

end Sys2Proof.Machine
end

