-- ==== Sys2Proof/Machine/Buffer.lean ====
section
/-! DEFINITION. The operations on the Chip Command Buffer (41_buffer.md). The acting request is `State.agent`. -/

namespace Sys2Proof.Machine

/-- `SLOT_WR` (41_buffer.md R91). Not enabled: no step of the block (log entry 4). -/
def execSlotWr (s : State) : Step :=
  if s.canWriteSlot s.agent then andThen (writeSlot s s.agent) fun s' => .next (s'.answers .done)
  else .next (s.answers .noStep)

/-- `BUF_RD` (41_buffer.md R93), enabled for the request that holds the lock. R93's precondition is the lock alone, and
its corner case says that the result contains the reader's own slot write, made earlier (R111). Presented before that
slot write it answers the buffer as it stands: DESIGN CHOICE, unsafe; log entry 29. -/
def execBufRd (s : State) : Step :=
  if s.lock = .held s.agent then
    match s.wholeBuffer with
    | some bs => .next (s.answers (.bytes bs))
    | none => .fault .outOfBuffer
  else .next (s.answers .noStep)

end Sys2Proof.Machine
end

