-- ==== Sys2Proof/Machine/Composer.lean ====
section
/-! DEFINITION. The Transmission Composer (42_composer.md). The acting request is `State.agent`. -/

namespace Sys2Proof.Machine

/-- `COMPOSE` (42_composer.md R100). Its result is the request's frame. -/
def execCompose (s : State) : Step :=
  if s.canCompose s.agent then
    andThen (composeFrame s s.agent) fun s' =>
      .next (s'.answers (.bytes ((s'.request s.agent).frame.getD [])))
  else .next (s.answers .noStep)

/-- `XMIT` (42_composer.md R102): the write begins, and when the transport has answered the entry is appended to `wire`
and the answer is the result. While it has not answered the request waits in SEND, and the same operation presented
again goes on waiting: the frame is handed over once (log entry 10). -/
def execXmit (s : State) : Step :=
  let s1 := beginWrite s s.agent
  if s1.holdsIn s.agent .send then
    match s.tx with
    | some r => .next ((takeAnswer s1 s.agent).answers (.transport r))
    | none => .next (s1.answers .waiting)
  else .next (s.answers .noStep)

end Sys2Proof.Machine
end

