-- ==== Sys2Proof/Machine/Coordinator.lean ====
section
/-! DEFINITION. The Update Coordinator (43_update.md). The acting request is `State.agent`. -/

namespace Sys2Proof.Machine

/-- `LOCK_ACQ` (43_update.md R112). While another request holds the lock the acting request waits. -/
def execLockAcq (s : State) : Step :=
  if s.canAcquire s.agent then .next ((acquire s s.agent).answers .done)
  else if s.phase s.agent = .wait then .next (s.answers .waiting)
  else .next (s.answers .noStep)

/-- `LOCK_REL` (43_update.md R113). Afterwards the requester has the status. -/
def execLockRel (s : State) : Step :=
  if s.holdsIn s.agent .rel then .next ((release s s.agent).reporting s.agent)
  else .next (s.answers .noStep)

/-- The steps of request `q` from CHECK on, in the order of 43_update.md R110, until it is DONE or must wait for the
lock or for the transport. -/
def runRequest (s : State) (q : Nat) : Step :=
  andThen (work (acquire (checkFrame s q) q) q) fun s' =>
    .next ((release (takeAnswer s' q) q).reporting q)

/-- `UPDATE` (43_update.md R110): the acting agent makes the request and takes its steps until it is DONE or must wait
(log entry 7). A request that cannot be made is dropped without a step of the block (30_encoding.md R58). -/
def execUpdate (led : Nat) (ch0 ch1 ch2 : Byte) (s : State) : Step :=
  match invoke s s.agent led ch0 ch1 ch2 with
  | some s1 => runRequest s1 s.agent
  | none => .next (s.answers .noStep)

end Sys2Proof.Machine
end

