-- ==== Sys2Proof/Machine/Encoder.lean ====
section
/-! DEFINITION. The Channel Encoder and the Pixel Encoder (40_encoder.md sections 3 and 4). -/

namespace Sys2Proof.Machine

/-- `ENC_CH(v)` (40_encoder.md R74). -/
def execEncCh (v : Byte) (s : State) : Step := .next (s.answers (.bytes (encodeChannel v).bytes))

/-- The acting request is in HELD, holds the lock, and `ch0, ch1, ch2` are its own operands: the evaluation is the one
of 43_update.md R115. -/
abbrev State.encodesOwnPixel (s : State) (ch0 ch1 ch2 : Byte) : Prop :=
  s.holdsIn s.agent .held ∧
    (s.request s.agent).req.map (fun l => (l.ch0, l.ch1, l.ch2)) = some (ch0, ch1, ch2)

/-- `ENC_PX(ch0, ch1, ch2)` (40_encoder.md R76). It is pure; where the request that holds the lock evaluates it for its
own operands, that request's `px` takes the value (10_state.md R13, 43_update.md R115; log entry 8). -/
def execEncPx (ch0 ch1 ch2 : Byte) (s : State) : Step :=
  let answer := Result.bytes (encodePixel ch0 ch1 ch2).bytes
  if s.encodesOwnPixel ch0 ch1 ch2 then .next ((latchPixel s s.agent).answers answer)
  else .next (s.answers answer)

end Sys2Proof.Machine
end

