-- ==== Sys2Proof/Machine/Symbols.lean ====
section
/-! DEFINITION. The two symbols (30_encoding.md R51). -/

namespace Sys2Proof.Machine

/-- `SYM0`: the symbol `100` of a logical 0 (30_encoding.md R51). -/
def execSym0 (s : State) : Step := .next (s.answers (.symbol (symbolNumber false)))

/-- `SYM1`: the symbol `110` of a logical 1 (30_encoding.md R51). -/
def execSym1 (s : State) : Step := .next (s.answers (.symbol (symbolNumber true)))

end Sys2Proof.Machine
end

