-- ==== Sys2Proof/Machine/Tables.lean ====
section
/-! DEFINITION. The Bit Encoder (40_encoder.md section 2): the twenty table entries and the three lookups. All are
pure: nothing of the state changes but the answer (40_encoder.md R77). -/

namespace Sys2Proof.Machine

/-- `LUT_H[0]` (40_encoder.md R70). -/
def execLutH0 (s : State) : Step := .next (s.answers (.byte (lutH 0#3)))

/-- `LUT_H[1]` (40_encoder.md R70). -/
def execLutH1 (s : State) : Step := .next (s.answers (.byte (lutH 1#3)))

/-- `LUT_H[2]` (40_encoder.md R70). -/
def execLutH2 (s : State) : Step := .next (s.answers (.byte (lutH 2#3)))

/-- `LUT_H[3]` (40_encoder.md R70). -/
def execLutH3 (s : State) : Step := .next (s.answers (.byte (lutH 3#3)))

/-- `LUT_H[4]` (40_encoder.md R70). -/
def execLutH4 (s : State) : Step := .next (s.answers (.byte (lutH 4#3)))

/-- `LUT_H[5]` (40_encoder.md R70). -/
def execLutH5 (s : State) : Step := .next (s.answers (.byte (lutH 5#3)))

/-- `LUT_H[6]` (40_encoder.md R70). -/
def execLutH6 (s : State) : Step := .next (s.answers (.byte (lutH 6#3)))

/-- `LUT_H[7]` (40_encoder.md R70). -/
def execLutH7 (s : State) : Step := .next (s.answers (.byte (lutH 7#3)))

/-- `LUT_M[0]` (40_encoder.md R71). -/
def execLutM0 (s : State) : Step := .next (s.answers (.byte (lutM 0#2)))

/-- `LUT_M[1]` (40_encoder.md R71). -/
def execLutM1 (s : State) : Step := .next (s.answers (.byte (lutM 1#2)))

/-- `LUT_M[2]` (40_encoder.md R71). -/
def execLutM2 (s : State) : Step := .next (s.answers (.byte (lutM 2#2)))

/-- `LUT_M[3]` (40_encoder.md R71). -/
def execLutM3 (s : State) : Step := .next (s.answers (.byte (lutM 3#2)))

/-- `LUT_L[0]` (40_encoder.md R72). -/
def execLutL0 (s : State) : Step := .next (s.answers (.byte (lutL 0#3)))

/-- `LUT_L[1]` (40_encoder.md R72). -/
def execLutL1 (s : State) : Step := .next (s.answers (.byte (lutL 1#3)))

/-- `LUT_L[2]` (40_encoder.md R72). -/
def execLutL2 (s : State) : Step := .next (s.answers (.byte (lutL 2#3)))

/-- `LUT_L[3]` (40_encoder.md R72). -/
def execLutL3 (s : State) : Step := .next (s.answers (.byte (lutL 3#3)))

/-- `LUT_L[4]` (40_encoder.md R72). -/
def execLutL4 (s : State) : Step := .next (s.answers (.byte (lutL 4#3)))

/-- `LUT_L[5]` (40_encoder.md R72). -/
def execLutL5 (s : State) : Step := .next (s.answers (.byte (lutL 5#3)))

/-- `LUT_L[6]` (40_encoder.md R72). -/
def execLutL6 (s : State) : Step := .next (s.answers (.byte (lutL 6#3)))

/-- `LUT_L[7]` (40_encoder.md R72). -/
def execLutL7 (s : State) : Step := .next (s.answers (.byte (lutL 7#3)))

/-- `LUT_H` of a key (40_encoder.md R70). -/
def execLutH (k : Key3) (s : State) : Step := .next (s.answers (.byte (lutH k)))

/-- `LUT_M` of a key (40_encoder.md R71). -/
def execLutM (k : Key2) (s : State) : Step := .next (s.answers (.byte (lutM k)))

/-- `LUT_L` of a key (40_encoder.md R72). -/
def execLutL (k : Key3) (s : State) : Step := .next (s.answers (.byte (lutL k)))

end Sys2Proof.Machine
end

