-- ==== Sys2Proof/Machine/Dispatch.lean ====
section
/-! DEFINITION. The meaning of every row of the opcode table, one arm a constructor. -/

namespace Sys2Proof.Machine

def exec (i : Instr) (s : State) : Host.Outcome State Fault Refusal :=
  match i with
  | .sym0 => Sys2Proof.Machine.execSym0 s
  | .sym1 => Sys2Proof.Machine.execSym1 s
  | .lutH0 => Sys2Proof.Machine.execLutH0 s
  | .lutH1 => Sys2Proof.Machine.execLutH1 s
  | .lutH2 => Sys2Proof.Machine.execLutH2 s
  | .lutH3 => Sys2Proof.Machine.execLutH3 s
  | .lutH4 => Sys2Proof.Machine.execLutH4 s
  | .lutH5 => Sys2Proof.Machine.execLutH5 s
  | .lutH6 => Sys2Proof.Machine.execLutH6 s
  | .lutH7 => Sys2Proof.Machine.execLutH7 s
  | .lutM0 => Sys2Proof.Machine.execLutM0 s
  | .lutM1 => Sys2Proof.Machine.execLutM1 s
  | .lutM2 => Sys2Proof.Machine.execLutM2 s
  | .lutM3 => Sys2Proof.Machine.execLutM3 s
  | .lutL0 => Sys2Proof.Machine.execLutL0 s
  | .lutL1 => Sys2Proof.Machine.execLutL1 s
  | .lutL2 => Sys2Proof.Machine.execLutL2 s
  | .lutL3 => Sys2Proof.Machine.execLutL3 s
  | .lutL4 => Sys2Proof.Machine.execLutL4 s
  | .lutL5 => Sys2Proof.Machine.execLutL5 s
  | .lutL6 => Sys2Proof.Machine.execLutL6 s
  | .lutL7 => Sys2Proof.Machine.execLutL7 s
  | .lutH k => Sys2Proof.Machine.execLutH k s
  | .lutM k => Sys2Proof.Machine.execLutM k s
  | .lutL k => Sys2Proof.Machine.execLutL k s
  | .encCh v => Sys2Proof.Machine.execEncCh v s
  | .encPx ch0 ch1 ch2 => Sys2Proof.Machine.execEncPx ch0 ch1 ch2 s
  | .slotWr => Sys2Proof.Machine.execSlotWr s
  | .bufRd => Sys2Proof.Machine.execBufRd s
  | .compose => Sys2Proof.Machine.execCompose s
  | .xmit => Sys2Proof.Machine.execXmit s
  | .lockAcq => Sys2Proof.Machine.execLockAcq s
  | .lockRel => Sys2Proof.Machine.execLockRel s
  | .update led ch0 ch1 ch2 => Sys2Proof.Machine.execUpdate led ch0 ch1 ch2 s
  | .bringup n c b found => Sys2Proof.Machine.execBringup n c b found s

end Sys2Proof.Machine
end

