-- ==== Sys2Proof/Machine/Turns.lean ====
section
/-! DEFINITION. The turns of the environment's schedule: what an agent does in its turn, and the turn that presents a
bare word. -/

namespace Sys2Proof.Machine

/-- The turn `t` begins: it leaves the agenda, and its agent and its answers stand for the step (log entry 3). -/
def State.beginTurn (s : State) (t : Turn) (rest : List Turn) : State :=
  { s with agenda := rest, agent := t.agent, alloc := t.alloc, tx := t.tx }

/-- The state with the turns `ts` to come. -/
def State.withAgenda (s : State) (ts : List Turn) : State := { s with agenda := ts }

/-- An operation presented at a port: decoded and executed, or refused where no port takes it. -/
def present (m : Message) (s : State) : Step :=
  match decode m with
  | .ok i => exec i s
  | .error _ => .refused .malformed

/-- What the acting agent does in its turn. -/
def act (a : Act) (s : State) : Step :=
  match a with
  | .present m => present m s
  | .invoke led ch0 ch1 ch2 =>
    match invoke s s.agent led ch0 ch1 ch2 with
    | some s' => .next (s'.reporting s.agent)
    | none => .next (s.answers .noStep)
  | .advance => advance s s.agent
  | .reset => resetEvent s

/-- The agent that presents a bare word: a request needs a name that no request has used. -/
def State.wordAgent (s : State) : Message → Nat
  | .word .request _ => s.freshName
  | _ => s.agent

/-- The turn that presents the bare word `w` of `nbits` bits, with the environment's answers as they stand. -/
def State.wordTurn (s : State) (nbits w : Nat) : Turn :=
  let m := tableMessage nbits w
  { agent := s.wordAgent m, alloc := s.alloc, tx := s.tx, act := .present m }

end Sys2Proof.Machine
end

