-- ==== Sys2Proof/Machine/Step.lean ====
section
/-! DEFINITION. One step of the machine: the next turn of the environment's schedule (log entry 2). -/

namespace Sys2Proof.Machine

/-- One step. With no turn to come the block does nothing (70_reset_and_hazards.md R150). -/
def step (s : State) : Host.Outcome State Fault Refusal :=
  match s.agenda with
  | [] => .next s
  | t :: rest => act t.act (s.beginTurn t rest)

/-- The state in which the very next step runs the bare word `w` (log entry 16). -/
def State.withFetchWord (s : State) (nbits w : Nat) : State :=
  { s with agenda := s.wordTurn nbits w :: s.agenda }

end Sys2Proof.Machine
end

