-- ==== Sys2Proof/Machine/Chains.lean ====
section
/-! DEFINITION. Several chain contexts: a product of independent blocks that share only the constant tables
(20_memory.md R44, 92_eei_decisions.md D17; log entry 22). -/

namespace Sys2Proof.Machine

/-- `n` chain contexts right after reset, each under its own name, so that each draws its own BUF_RESET. -/
def chainsAtReset (n : Nat) : List State := (List.range n).map fun k => { State.reset with chain := k }

/-- Chain context `k` takes one step; the others stand still. A chain that does not exist takes none. -/
def stepChain (k : Nat) (chains : List State) : Host.Outcome (List State) Fault Refusal :=
  match chains[k]? with
  | none => .next chains
  | some s =>
    match step s with
    | .next s' => .next (chains.set k s')
    | .fault r => .fault r
    | .refused r => .refused r

end Sys2Proof.Machine
end

