-- ==== Sys2Proof/Safety.lean ====
section
/-! DEFINITION. What a safe run is: the invariant of the block, the sequential execution in lock order that every
execution must agree with (43_update.md R120), the end of a run and a hang (70_reset_and_hazards.md R163), and what is
known of the LED chain from outside (42_composer.md R104). -/

namespace Sys2Proof.Machine

/-- `N`, the number of positions; 0 while the block is down (00_scope.md R4). -/
def State.chips (s : State) : Nat :=
  match s.topo with
  | some t => t.chipCount
  | none => 0

/-- The bytes of the buffer in address order. -/
def State.contents (s : State) : List Byte := s.buf.map Prod.snd

/-- The buffer as the latest bring-up left it (10_state.md R22). -/
def State.resetBuffer (s : State) : Memory := Memory.fresh s.chain (s.draws - 1) 0 s.bufLength

/-! ### The sequential execution in lock order -/

/-- The slot write of one critical section (20_memory.md R41). -/
def writeSection (m : Memory) (c : CriticalSection) : Memory :=
  (Memory.writeBytes m (slotAddress c.req.led) c.req.pixel.bytes).getD m

/-- The buffer after the slot writes of the critical sections `cs`, in their order (20_memory.md R41 (a)). -/
def replay (m : Memory) (cs : List CriticalSection) : Memory := cs.foldl writeSection m

/-- The frames that the critical sections `cs` send when they run one after another (43_update.md R120): each covers
the whole buffer as its own slot write left it. -/
def framesOf (m : Memory) : List CriticalSection → List (Nat × List Byte)
  | [] => []
  | c :: cs => (c.q, padFrame ((writeSection m c).map Prod.snd)) :: framesOf (writeSection m c) cs

/-- The critical sections whose slot write has been done: all but that of a holder still before its `SLOT_WR`. -/
def State.committed (s : State) : List CriticalSection :=
  match s.lock with
  | .free => s.order
  | .held q => if (s.request q).slotDone then s.order else s.order.dropLast

/-- The critical sections whose frame the transport has answered: all but that of a holder still before the answer. -/
def State.answered (s : State) : List CriticalSection :=
  match s.lock with
  | .free => s.order
  | .held q => if s.phase q = .rel then s.order else s.order.dropLast

/-! ### The invariant -/

/-- What the fields of a request hold in each phase (10_state.md R12 to R14, R17, R26), in a chain of `n` positions
whose buffer holds the bytes `now`. -/
def Request.fits (n : Nat) (now : List Byte) (r : Request) : Prop :=
  match r.phase with
  | .idle => r = Request.idle
  | .check => ∃ l : ReqLatch, l.led < n ∧ r = ⟨.check, some l, none, false, none, none⟩
  | .wait => ∃ l : ReqLatch, l.led < n ∧ r = ⟨.wait, some l, none, false, none, none⟩
  | .held => ∃ l : ReqLatch, l.led < n ∧ r.req = some l ∧ (r.px = none ∨ r.px = some l.pixel) ∧
      (r.slotDone = true → r.px = some l.pixel) ∧
      (∀ f, r.frame = some f → r.slotDone = true ∧ f = padFrame now) ∧ r.status = none
  | .send => ∃ l : ReqLatch, l.led < n ∧ r = ⟨.send, some l, some l.pixel, true, some (padFrame now), none⟩
  | .rel => ∃ (l : ReqLatch) (a : TransportAnswer), l.led < n ∧
      r = ⟨.rel, some l, some l.pixel, true, some (padFrame now), some a.toStatus⟩
  | .done => ∃ st, r = ⟨.done, none, none, false, none, some st⟩

/-- The canonical form of the request list: names strictly rising, and no request listed that has not been made. -/
def Requests.wf : List (Nat × Request) → Bool
  | [] => true
  | [(_, r)] => r.phase != .idle
  | (a, r) :: (b, x) :: rs => r.phase != .idle && decide (a < b) && Requests.wf ((b, x) :: rs)

/-- The invariant of one chain context. -/
structure State.Inv (s : State) : Prop where
  /-- while the block is down nothing exists and nothing has happened (10_state.md R24) -/
  down : s.up = false → s.topo = none ∧ s.lock = .free ∧ s.reqs = [] ∧ s.wire = [] ∧ s.order = []
  /-- the topology of a block that is up is a supported one (00_scope.md R5) -/
  topology : s.up = true → 0 < s.chips ∧ s.topo = some ⟨s.chips, Config.channels, Config.slotBytes⟩
  /-- there are exactly `N` endpoints and `ep[i].chip_id = i` (10_state.md R16) -/
  endpoints : s.endpoints = (List.range s.chips).map Endpoint.mk
  /-- the buffer's addresses are exactly `0 .. L-1` (20_memory.md R39) -/
  addresses : s.buf.map Prod.fst = List.range s.bufLength
  /-- the request list keeps its canonical form -/
  requests : Requests.wf s.reqs = true
  /-- every request's fields fit its phase -/
  fits : ∀ q, (s.request q).fits s.chips s.contents
  /-- the lock names exactly the request in HELD, SEND or REL (10_state.md R11, 43_update.md R111) -/
  holder : ∀ q, s.lock = .held q ↔ (s.phase q).holdsLock = true
  /-- no request has two critical sections (43_update.md R112) -/
  once : (s.order.map CriticalSection.q).Nodup
  /-- every critical section is of an endpoint, and its request holds the lock or has ended -/
  sections : ∀ c ∈ s.order, c.req.led < s.chips ∧ ((s.phase c.q).holdsLock = true ∨ s.phase c.q = .done)
  /-- the holder's critical section is the latest -/
  latest : ∀ q, s.lock = .held q → ∃ l, (s.request q).req = some l ∧ s.order.getLast? = some ⟨q, l⟩
  /-- the buffer is that of the sequential execution in lock order (20_memory.md R41) -/
  buffer : s.buf = replay s.resetBuffer s.committed
  /-- so are the frames handed to the transport, whole and in lock order (20_memory.md R43) -/
  frames : s.wire.map (fun w => (w.q, w.frame)) = framesOf s.resetBuffer s.answered
  /-- a request whose frame was answered has the status of the answer (43_update.md R116) -/
  statuses : ∀ w ∈ s.wire, (s.request w.q).status = some w.outcome.toStatus
  /-- and a status that is no AllocationFailure comes from an answer (60_exceptions.md R135) -/
  sources : ∀ q st, (s.request q).status = some st →
    st = .allocationFailure ∨ ∃ w ∈ s.wire, w.q = q ∧ w.outcome.toStatus = st

/-! ### The block apart from its environment -/

/-- The state with the model's own schedule, inputs and observation port wiped: two states with the same block differ
in nothing the spec gives the machine. -/
def State.block (s : State) : State :=
  { s with agenda := [], agent := 0, alloc := .ok, tx := none, result := .none }

/-- The run has ended: every request that was made is DONE (70_reset_and_hazards.md R163). -/
def State.runEnded (s : State) : Prop := ∀ q, s.phase q ≠ .idle → s.phase q = .done

/-- Request `q` has a small step when the transport is silent (43_update.md section 3). -/
def State.canMoveInSilence (s : State) (q : Nat) : Bool :=
  match s.phase q with
  | .check | .held | .rel => true
  | .wait => s.lock = .free
  | .idle | .send | .done => false

/-- Some request waits for the lock or for the transport, and no request's agent can step by itself: only an answer of
the transport can go on. -/
def State.requestsBlocked (s : State) : Prop :=
  (∃ q, s.phase q = .wait ∨ s.phase q = .send) ∧ ∀ q, s.canMoveInSilence q = false

/-- The transport, the other agent (60_exceptions.md R140), has no answer to give: no turn to come answers a request that
is in SEND. The agenda is all that the environment will do (log entries 2 and 26). -/
def State.transportSilent (s : State) : Prop := ∀ x ∈ s.agenda, s.phase x.agent = .send → x.tx = none

/-- A hang: some request waits for the lock or for the transport, and no agent can step, neither a request's nor the
transport (70_reset_and_hazards.md R163, 93_implementation_defined.md U8). -/
def State.Hung (s : State) : Prop := s.requestsBlocked ∧ s.transportSilent

/-- How far a request has come (10_state.md R14: the phases advance only forwards). -/
def Phase.rank : Phase → Nat
  | .idle => 0
  | .check => 1
  | .wait => 2
  | .held => 3
  | .send => 4
  | .rel => 5
  | .done => 6

/-! ### What is known of the LED chain -/

/-- What can be said of the physical LED chain, which the block cannot read (10_state.md R19). -/
inductive ChainView where
  | unknown
  | sent (frame : List Byte)
  deriving DecidableEq, Repr

/-- A frame has been handed to the transport, which has not answered it: a request holds the lock in SEND
(42_composer.md R102). -/
def State.writeInFlight (s : State) : Bool :=
  match s.lock with
  | .held q => s.phase q == .send
  | .free => false

/-- What the answers say: unknown before the first frame and after a frame answered `fail(e)`, until the next frame
answered `ok` (42_composer.md R104, 93_implementation_defined.md U3). -/
def answeredView (wire : List WireEntry) : ChainView :=
  match wire.getLast? with
  | some ⟨_, f, .ok⟩ => .sent f
  | _ => .unknown

/-- What is known of the LED chain. While a write is in flight, or hangs there, R104 says nothing (it speaks of `ok` and
`fail(e)` only): the model says unknown. DESIGN CHOICE, safe; log entry 24. -/
def State.chainView (s : State) : ChainView :=
  if s.writeInFlight then .unknown else answeredView s.wire

end Sys2Proof.Machine
end

