-- ==== Sys2Proof/Certificates/Slice0/Obligations.lean ====
section
/-! DEFINITION. The statements for the provers, from the numbered rules of spec/. Where a clause rests on a choice of
the model, its docstring names the log entry. `State.result`, `State.order` and `Request.slotDone` are the model's own
fields (log entries 1, 19 and 9). -/

namespace Sys2Proof.Machine

/-- Bit `i` of a key moved to bit `n` of a byte. -/
def keyBitAt {w : Nat} (k : BitVec w) (i n : Nat) : Byte := (BitVec.ofBool (k.getLsbD i)).setWidth 8 <<< n

/-- The acting request holds the lock in HELD and `ch0, ch1, ch2` are its operands. -/
def encodesForItself (s : State) (ch0 ch1 ch2 : Byte) : Prop :=
  s.lock = .held s.agent ∧ s.phase s.agent = .held ∧ ∃ led, (s.request s.agent).req = some ⟨led, ch0, ch1, ch2⟩

/-- The turn of agent `q`, with the environment's answers as they stand in `s`. -/
def turnOf (s : State) (q : Nat) (a : Act) : Turn := { agent := q, alloc := s.alloc, tx := s.tx, act := a }

end Sys2Proof.Machine

open Sys2Proof Sys2Proof.Machine

/-! ### Presenting an operation -/

/-- Every operation, with every value of its operands, is read back from its word or record. The ports and the words
are the model's reading of the opcode table (log entry 14) and the spec's own layout (92_eei_decisions.md D2). -/
def Obligations.DecodeOfEncodeIsTheOperation : Prop :=
  ∀ i : Instr, decode (encode i) = .ok i

/-- At one port every word has one meaning: the word that is read is the word of the operation it stands for. The ports
are the model's choice (log entry 14). -/
def Obligations.WordsAtAPortHaveOneMeaning : Prop :=
  ∀ (p : Port) (w : Nat) (i : Instr), decode (.word p w) = .ok i → encode i = .word p w

/-- The request word is `led[31:24] ch0[23:16] ch1[15:8] ch2[7:0]` (30_encoding.md section 3, the spec's own layout). -/
def Obligations.RequestWordFieldsAreRead : Prop :=
  ∀ (led : Nat) (ch0 ch1 ch2 : Byte), led < 256 →
    decode (.word .request (led * 2 ^ 24 + ch0.toNat * 2 ^ 16 + ch1.toNat * 2 ^ 8 + ch2.toNat)) =
      .ok (.update led ch0 ch1 ch2)

/-- A few words, with bits from 95_test_vectors.md sections 2.1 and 2.5 and spec/opcode_table.json, at the ports the
model chose (log entry 14); the layout of the two request words is the spec's own decision (92_eei_decisions.md D2). -/
def Obligations.WordsOfTheSpecDecode : Prop :=
  decode (.word .request 0x01AA55F0) = .ok (.update 1 0xAA 0x55 0xF0) ∧
  decode (.word .request 0x02010204) = .ok (.update 2 0x01 0x02 0x04) ∧
  decode (.word .pixel 0x123456) = .ok (.encPx 0x12 0x34 0x56) ∧
  decode (.word .channel 0xF0) = .ok (.encCh 0xF0) ∧
  decode (.word .keyM 0b10) = .ok (.lutM 2) ∧
  decode (.word .entryH 0b101) = .ok .lutH5 ∧
  decode (.word .entryL 0b110) = .ok .lutL6 ∧
  decode (.word .symbol 0b1) = .ok .sym1

/-- A word wider than its port and bits that no port takes are rejected by name, and step refuses them
(log entry 25). -/
def Obligations.MalformedWordsAreRefused : Prop :=
  (∀ (p : Port) (w : Nat), 2 ^ p.width ≤ w → decode (.word p w) = .error .wordTooWide) ∧
  (∀ nbits w : Nat, decode (.noPort nbits w) = .error .noSuchPort) ∧
  ∀ (s : State) (t : Turn) (rest : List Turn) (m : Message) (e : DecodeError),
    s.agenda = t :: rest → t.act = .present m → decode m = .error e → step s = .refused .malformed

/-- When the next turn presents an operation, step is exec of the decoded operation in the state where the turn has
left the agenda and its agent and answers stand. Placing a bare word places such a turn. The turns and the agenda (log
entries 2 and 3), the placing (log entry 16) and the reading of a bare word as the first row of the table that has it
(log entry 15, unsafe for claims about bare words such as the second clause) are the model's choices. -/
def Obligations.StepRunsTheDecodedOperation : Prop :=
  (∀ (s : State) (t : Turn) (rest : List Turn) (m : Message) (i : Instr),
    s.agenda = t :: rest → t.act = .present m → decode m = .ok i →
    step s = exec i { s with agenda := rest, agent := t.agent, alloc := t.alloc, tx := t.tx }) ∧
  ∀ (s : State) (nbits w : Nat) (i : Instr), decodeTableWord nbits w = some i →
    step (s.withFetchWord nbits w) = exec i { s with agent := (s.wordTurn nbits w).agent }

/-! ### The encoder -/

/-- R51: `SYM0` and `SYM1` answer the symbol `1 d 0` of their bit. -/
def Obligations.SymbolRowsAnswerOneBitZero : Prop :=
  (∀ d : Bool, symbolBits d = [true, d, false]) ∧
  ∀ s : State,
    exec .sym0 s = .next { s with result := .symbol 0b100#3 } ∧
    exec .sym1 s = .next { s with result := .symbol 0b110#3 }

/-- The twenty rows of the table entries answer the bytes of 40_encoder.md section 2 and change nothing else. -/
def Obligations.TableEntryRowsAnswerTheirByte : Prop :=
  ∀ s : State,
    exec .lutH0 s = .next { s with result := .byte 0x92#8 } ∧ exec .lutH1 s = .next { s with result := .byte 0x93#8 } ∧
    exec .lutH2 s = .next { s with result := .byte 0x9A#8 } ∧ exec .lutH3 s = .next { s with result := .byte 0x9B#8 } ∧
    exec .lutH4 s = .next { s with result := .byte 0xD2#8 } ∧ exec .lutH5 s = .next { s with result := .byte 0xD3#8 } ∧
    exec .lutH6 s = .next { s with result := .byte 0xDA#8 } ∧ exec .lutH7 s = .next { s with result := .byte 0xDB#8 } ∧
    exec .lutM0 s = .next { s with result := .byte 0x49#8 } ∧ exec .lutM1 s = .next { s with result := .byte 0x4D#8 } ∧
    exec .lutM2 s = .next { s with result := .byte 0x69#8 } ∧ exec .lutM3 s = .next { s with result := .byte 0x6D#8 } ∧
    exec .lutL0 s = .next { s with result := .byte 0x24#8 } ∧ exec .lutL1 s = .next { s with result := .byte 0x26#8 } ∧
    exec .lutL2 s = .next { s with result := .byte 0x34#8 } ∧ exec .lutL3 s = .next { s with result := .byte 0x36#8 } ∧
    exec .lutL4 s = .next { s with result := .byte 0xA4#8 } ∧ exec .lutL5 s = .next { s with result := .byte 0xA6#8 } ∧
    exec .lutL6 s = .next { s with result := .byte 0xB4#8 } ∧ exec .lutL7 s = .next { s with result := .byte 0xB6#8 }

/-- The lookups follow the formulas of 40_encoder.md section 2 for every key and change nothing else. -/
def Obligations.LookupsFollowTheirFormulas : Prop :=
  (∀ (s : State) (k : Key3), exec (.lutH k) s =
    .next { s with result := .byte (0x92#8 ||| keyBitAt k 2 6 ||| keyBitAt k 1 3 ||| keyBitAt k 0 0) }) ∧
  (∀ (s : State) (k : Key2), exec (.lutM k) s =
    .next { s with result := .byte (0x49#8 ||| keyBitAt k 1 5 ||| keyBitAt k 0 2) }) ∧
  ∀ (s : State) (k : Key3), exec (.lutL k) s =
    .next { s with result := .byte (0x24#8 ||| keyBitAt k 2 7 ||| keyBitAt k 1 4 ||| keyBitAt k 0 1) }

/-- R73: `ENC_CH` answers exactly three bytes, which are the lookups of the three keys, and whose bits, most significant
first, are the symbols of the eight input bits, most significant first. Nothing else changes. -/
def Obligations.ChannelEncoderMeetsTheBitContract : Prop :=
  ∀ (v : Byte) (s : State), ∃ bs : List Byte,
    exec (.encCh v) s = .next { s with result := .bytes bs } ∧ bs.length = 3 ∧
    bs = [lutH ((v >>> 5).setWidth 3), lutM (((v >>> 3) &&& 0x3#8).setWidth 2), lutL ((v &&& 0x7#8).setWidth 3)] ∧
    streamOf bs = symbolBits (v.getLsbD 7) ++ symbolBits (v.getLsbD 6) ++ symbolBits (v.getLsbD 5) ++
      symbolBits (v.getLsbD 4) ++ symbolBits (v.getLsbD 3) ++ symbolBits (v.getLsbD 2) ++
      symbolBits (v.getLsbD 1) ++ symbolBits (v.getLsbD 0)

/-- Every stream position of an EncodedChannel (30_encoding.md section 1.2): one, the bit, zero. -/
def Obligations.ChannelWaveformBitByBit : Prop :=
  ∀ (v : Byte) (j : Nat), j < 8 →
    (streamOf (encodeChannel v).bytes).length = 24 ∧
    (streamOf (encodeChannel v).bytes)[3 * j]? = some true ∧
    (streamOf (encodeChannel v).bytes)[3 * j + 1]? = some (v.getLsbD (7 - j)) ∧
    (streamOf (encodeChannel v).bytes)[3 * j + 2]? = some false

/-- R75, the round-trip law, with its two consequences: the encoder is injective, and the inverse is defined on the
encoder's outputs only. -/
def Obligations.RoundTripLaw : Prop :=
  (∀ v : Byte, decodeChannel (encodeChannel v) = some v) ∧
  (∀ v v' : Byte, encodeChannel v = encodeChannel v' → v = v') ∧
  ∀ (e : EncodedChannel) (v : Byte), decodeChannel e = some v → e = encodeChannel v

/-- The twenty table entries are distinct, and every byte of an encoded pixel is one of them (30_encoding.md
section 4). -/
def Obligations.EncodedBytesAreTableEntries : Prop :=
  (lutHTable.toList ++ lutMTable.toList ++ lutLTable.toList).Nodup ∧
  ∀ ch0 ch1 ch2 : Byte, ∀ b ∈ (encodePixel ch0 ch1 ch2).bytes,
    b ∈ lutHTable.toList ++ lutMTable.toList ++ lutLTable.toList

/-- `ENC_PX` of red, green, blue answers green's, then red's, then blue's waveform, in every state (40_encoder.md
section 4). Nothing else changes, but where the holder of the lock evaluates it for its own operands: that exception to
the section's "Side effects: none" is the model's choice (log entry 8), and the next statement says what changes there. -/
def Obligations.PixelEncoderOrdersGreenRedBlue : Prop :=
  ∀ (ch0 ch1 ch2 : Byte) (s : State), ∃ rs,
    exec (.encPx ch0 ch1 ch2) s = .next { s with
      reqs := rs
      result := .bytes ((encodeChannel ch1).bytes ++ (encodeChannel ch0).bytes ++ (encodeChannel ch2).bytes) } ∧
    (¬ encodesForItself s ch0 ch1 ch2 → rs = s.reqs)

/-- Where the holder of the lock evaluates `ENC_PX` for its own operands, its `px` takes the value (log entry 8), and
nothing else changes but the answer. -/
def Obligations.PixelEncoderLatchesTheHoldersPixel : Prop :=
  ∀ (ch0 ch1 ch2 : Byte) (s : State), encodesForItself s ch0 ch1 ch2 →
    exec (.encPx ch0 ch1 ch2) s = .next { s with
      reqs := Requests.set s.reqs s.agent { s.request s.agent with
        px := some ⟨encodeChannel ch1, encodeChannel ch0, encodeChannel ch2⟩ }
      result := .bytes ((encodeChannel ch1).bytes ++ (encodeChannel ch0).bytes ++ (encodeChannel ch2).bytes) }

/-! ### The Chip Command Buffer -/

/-- R90, R91, R94: `SLOT_WR` stores byte `j` of the pixel at address `9 * led + j` and changes no other byte of the
buffer, and nothing else but the model's own mark and answer. -/
def Obligations.SlotWriteStoresThePixelInItsSlot : Prop :=
  ∀ (s : State) (l : ReqLatch) (p : EncodedPixel),
    s.lock = .held s.agent → s.phase s.agent = .held →
    (s.request s.agent).req = some l → (s.request s.agent).px = some p →
    (∀ j < 9, Memory.read s.buf (9 * l.led + j) ≠ none) →
    ∃ t, exec .slotWr s = .next t ∧
      (∀ j < 9, Memory.read t.buf (9 * l.led + j) = p.bytes[j]?) ∧
      (∀ a, a < 9 * l.led ∨ 9 * l.led + 9 ≤ a → Memory.read t.buf a = Memory.read s.buf a) ∧
      t = { s with
        buf := t.buf
        reqs := Requests.set s.reqs s.agent { s.request s.agent with slotDone := true }
        result := .done }

/-- `BUF_RD` (41_buffer.md section 3) answers the `L` bytes of the buffer in address order and changes nothing else; after the reader's own
slot write they contain its pixel. That it is answered before that write too is the model's choice (log entry 29). -/
def Obligations.BufferReadAnswersTheWholeBuffer : Prop :=
  ∀ s : State, s.lock = .held s.agent → (∀ a < s.bufLength, Memory.read s.buf a ≠ none) →
    ∃ bs : List Byte, exec .bufRd s = .next { s with result := .bytes bs } ∧ bs.length = s.bufLength ∧
      (∀ a < s.bufLength, bs[a]? = Memory.read s.buf a) ∧
      ∀ l : ReqLatch, s.Inv → (s.request s.agent).req = some l → (s.request s.agent).slotDone = true →
        ∀ j < 9, bs[9 * l.led + j]? = l.pixel.bytes[j]?

/-- An operation of a request whose precondition does not hold (41_buffer.md to 43_update.md) is no step of the block:
only the answer says so (log entry 4). -/
def Obligations.OperationsOutOfOrderAreNoSteps : Prop :=
  ∀ s : State,
    (¬ (s.lock = .held s.agent ∧ s.phase s.agent = .held ∧ (s.request s.agent).req ≠ none ∧
      (s.request s.agent).px ≠ none) → exec .slotWr s = .next { s with result := .noStep }) ∧
    (s.lock ≠ .held s.agent → exec .bufRd s = .next { s with result := .noStep }) ∧
    (¬ (s.lock = .held s.agent ∧ s.phase s.agent = .held ∧ (s.request s.agent).slotDone = true) →
      exec .compose s = .next { s with result := .noStep }) ∧
    (¬ (s.lock = .held s.agent ∧ (s.phase s.agent = .send ∨
      s.phase s.agent = .held ∧ (s.request s.agent).frame ≠ none)) →
      exec .xmit s = .next { s with result := .noStep }) ∧
    (s.phase s.agent ≠ .wait → exec .lockAcq s = .next { s with result := .noStep }) ∧
    (¬ (s.lock = .held s.agent ∧ s.phase s.agent = .rel) → exec .lockRel s = .next { s with result := .noStep })

/-- No operation but `SLOT_WR`, `UPDATE` (which contains it) and `BRINGUP` changes a byte of the buffer
(41_buffer.md section 2). -/
def Obligations.OnlySlotWritesAndBringupChangeTheBuffer : Prop :=
  ∀ (i : Instr) (s t : State), exec i s = .next t →
    i ≠ .slotWr → (∀ led ch0 ch1 ch2, i ≠ .update led ch0 ch1 ch2) → (∀ n c b f, i ≠ .bringup n c b f) →
    t.buf = s.buf

/-- In every state of the invariant a slot holds the pixel of the latest critical section for its position, in lock
order, or its reset contents if there is none (41_buffer.md section 2). The lock order is the model's own history
(log entry 19). -/
def Obligations.SlotHoldsTheLatestPixel : Prop :=
  ∀ (s : State) (i : Nat), s.Inv → i < s.chips →
    Memory.readBytes s.buf (9 * i) 9 =
      match (s.committed.filter fun c => c.req.led == i).getLast? with
      | some c => some c.req.pixel.bytes
      | none => Memory.readBytes s.resetBuffer (9 * i) 9

/-! ### The Transmission Composer -/

/-- R100: `COMPOSE` builds the frame of `L + 2` bytes: a zero, every byte of the buffer in address order, a zero; and
changes nothing else. -/
def Obligations.ComposeBuildsThePaddedFrame : Prop :=
  ∀ s : State, s.lock = .held s.agent → s.phase s.agent = .held → (s.request s.agent).slotDone = true →
    (∀ a < s.bufLength, Memory.read s.buf a ≠ none) →
    ∃ f : List Byte,
      exec .compose s = .next { s with
        reqs := Requests.set s.reqs s.agent { s.request s.agent with frame := some f }
        result := .bytes f } ∧
      f.length = s.bufLength + 2 ∧ f[0]? = some 0x00#8 ∧
      (∀ a < s.bufLength, f[1 + a]? = Memory.read s.buf a) ∧ f[s.bufLength + 1]? = some 0x00#8

/-- A frame of encoded pixels as a bit stream (42_composer.md section 1): eight zeros, the symbols of green, red and
blue of every position, eight zeros. -/
def Obligations.FrameOfPixelsAsABitStream : Prop :=
  ∀ ls : List ReqLatch,
    streamOf (padFrame (ls.flatMap fun l => l.pixel.bytes)) =
      List.replicate 8 false ++
      (ls.flatMap fun l => channelStream l.ch1 ++ channelStream l.ch0 ++ channelStream l.ch2) ++
      List.replicate 8 false

/-- R102: `XMIT` hands the whole frame to the transport as one write. When the transport answers, the entry is
appended to `wire` and the answer is the result, verbatim; while it has not answered, the request waits in SEND and
`wire` is as before. Nothing else changes. (43_update.md R116 gives the request's phase and status.) -/
def Obligations.XmitHandsTheFrameOverOnce : Prop :=
  ∀ (s : State) (f : List Byte), s.lock = .held s.agent → s.phase s.agent = .held →
    (s.request s.agent).frame = some f →
    (∀ r, s.tx = some r → exec .xmit s = .next { s with
      reqs := Requests.set s.reqs s.agent { s.request s.agent with phase := .rel, status := some r.toStatus }
      wire := s.wire ++ [⟨s.agent, f, r⟩]
      result := .transport r }) ∧
    (s.tx = none → exec .xmit s = .next { s with
      reqs := Requests.set s.reqs s.agent { s.request s.agent with phase := .send }
      result := .waiting })

/-- A transport write that is waiting in SEND takes the answer when it comes, and hands no second frame over
(log entry 10). -/
def Obligations.XmitInSendTakesTheAnswer : Prop :=
  ∀ (s : State) (f : List Byte), s.lock = .held s.agent → s.phase s.agent = .send →
    (s.request s.agent).frame = some f →
    (∀ r, s.tx = some r → exec .xmit s = .next { s with
      reqs := Requests.set s.reqs s.agent { s.request s.agent with phase := .rel, status := some r.toStatus }
      wire := s.wire ++ [⟨s.agent, f, r⟩]
      result := .transport r }) ∧
    (s.tx = none → exec .xmit s = .next { s with result := .waiting })

/-! ### The Update Coordinator -/

/-- R112: a request that waits takes the lock when it is free, whichever request it is, and otherwise has no step.
(The lock order and the answer are the model's own.) -/
def Obligations.LockIsTakenByAnyWaiterWhenFree : Prop :=
  ∀ (s : State) (l : ReqLatch), s.phase s.agent = .wait → (s.request s.agent).req = some l →
    (s.lock = .free → exec .lockAcq s = .next { s with
      lock := .held s.agent
      reqs := Requests.set s.reqs s.agent { s.request s.agent with phase := .held }
      order := s.order ++ [⟨s.agent, l⟩]
      result := .done }) ∧
    ∀ p, s.lock = .held p → exec .lockAcq s = .next { s with result := .waiting }

/-- R113: `LOCK_REL` by the holder in REL frees the lock and ends the request with its status, whatever the transport
answered; nothing else changes. -/
def Obligations.LockReleaseEndsTheRequest : Prop :=
  ∀ (s : State) (st : Status), s.lock = .held s.agent → s.phase s.agent = .rel →
    (s.request s.agent).status = some st →
    exec .lockRel s = .next { s with
      lock := .free
      reqs := Requests.set s.reqs s.agent
        { phase := .done, req := none, px := none, slotDone := false, frame := none, status := some st }
      result := .status st }

/-- R118: invocation for the endpoint at index `led` latches that endpoint's `chip_id` and the three channel values
and puts the request in CHECK; nothing else changes. -/
def Obligations.InvocationLatchesTheOperands : Prop :=
  ∀ (s : State) (t : Turn) (rest : List Turn) (led : Nat) (ch0 ch1 ch2 : Byte) (ep : Endpoint),
    s.agenda = t :: rest → t.act = .invoke led ch0 ch1 ch2 →
    s.up = true → s.phase t.agent = .idle → s.endpoints[led]? = some ep →
    step s = .next { s with
      agenda := rest, agent := t.agent, alloc := t.alloc, tx := t.tx
      reqs := Requests.set s.reqs t.agent
        { phase := .check, req := some ⟨ep.chipId, ch0, ch1, ch2⟩, px := none, slotDone := false, frame := none,
          status := none }
      result := .done }

/-- R114: the frame resource check is decided before the lock: `ok` goes on to WAIT, `fail` ends the request with
AllocationFailure; buffer, lock and wire are as before. -/
def Obligations.FrameCheckIsDecidedBeforeTheLock : Prop :=
  ∀ (s : State) (t : Turn) (rest : List Turn), s.agenda = t :: rest → t.act = .advance →
    s.phase t.agent = .check →
    (t.alloc = .ok → step s = .next { s with
      agenda := rest, agent := t.agent, alloc := t.alloc, tx := t.tx
      reqs := Requests.set s.reqs t.agent { s.request t.agent with phase := .wait }
      result := .waiting }) ∧
    (t.alloc = .fail → step s = .next { s with
      agenda := rest, agent := t.agent, alloc := t.alloc, tx := t.tx
      reqs := Requests.set s.reqs t.agent
        { phase := .done, req := none, px := none, slotDone := false, frame := none,
          status := some .allocationFailure }
      result := .status .allocationFailure })

/-- R115: the work under the lock: the pixel of the operands is computed and written to its slot, and the frame is the
whole buffer with the new slot between the pads; the write begins. No other byte and no other request changes. -/
def Obligations.WorkUnderTheLock : Prop :=
  ∀ (s : State) (t : Turn) (rest : List Turn), s.Inv → s.agenda = t :: rest → t.act = .advance →
    s.lock = .held t.agent → s.phase t.agent = .held →
    ∃ (l : ReqLatch) (u : State), (s.request t.agent).req = some l ∧ step s = .next u ∧
      (∀ j < 9, Memory.read u.buf (9 * l.led + j) = (encodePixel l.ch0 l.ch1 l.ch2).bytes[j]?) ∧
      (∀ a, a < 9 * l.led ∨ 9 * l.led + 9 ≤ a → Memory.read u.buf a = Memory.read s.buf a) ∧
      u = { s with
        agenda := rest, agent := t.agent, alloc := t.alloc, tx := t.tx
        buf := u.buf
        reqs := Requests.set s.reqs t.agent
          { phase := .send, req := some l, px := some (encodePixel l.ch0 l.ch1 l.ch2), slotDone := true,
            frame := some ([0x00#8] ++ u.contents ++ [0x00#8]), status := none }
        result := .waiting }

/-- R116: when the transport answers, the history gains the frame with the answer, the status is `Ok` or
TransmissionFailure with the transport's value, and the request goes to REL; nothing is rolled back. -/
def Obligations.TransportAnswerSetsTheStatus : Prop :=
  ∀ (s : State) (t : Turn) (rest : List Turn) (f : List Byte) (r : TransportAnswer),
    s.agenda = t :: rest → t.act = .advance → s.lock = .held t.agent → s.phase t.agent = .send →
    (s.request t.agent).frame = some f → t.tx = some r →
    step s = .next { s with
      agenda := rest, agent := t.agent, alloc := t.alloc, tx := t.tx
      reqs := Requests.set s.reqs t.agent { s.request t.agent with
        phase := .rel
        status := some (match r with | .ok => .ok | .fail e => .transmissionFailure e) }
      wire := s.wire ++ [⟨t.agent, f, r⟩]
      result := .done }

/-- The state an `UPDATE` leaves when its request runs alone to the end: the new slot, one more frame with the
transport's answer, the request DONE with the status of the answer, the lock free. -/
def Obligations.UpdateRunsToItsEnd : Prop :=
  ∀ (s : State) (led : Nat) (ch0 ch1 ch2 : Byte) (r : TransportAnswer),
    s.Inv → s.up = true → led < s.chips → s.phase s.agent = .idle → s.lock = .free →
    s.alloc = .ok → s.tx = some r →
    ∃ t, exec (.update led ch0 ch1 ch2) s = .next t ∧
      (∀ j < 9, Memory.read t.buf (9 * led + j) = (encodePixel ch0 ch1 ch2).bytes[j]?) ∧
      (∀ a, a < 9 * led ∨ 9 * led + 9 ≤ a → Memory.read t.buf a = Memory.read s.buf a) ∧
      t = { s with
        buf := t.buf
        reqs := Requests.set s.reqs s.agent
          { phase := .done, req := none, px := none, slotDone := false, frame := none, status := some r.toStatus }
        wire := s.wire ++ [⟨s.agent, [0x00#8] ++ t.contents ++ [0x00#8], r⟩]
        order := s.order ++ [⟨s.agent, ⟨led, ch0, ch1, ch2⟩⟩]
        result := .status r.toStatus }

/-- An `UPDATE` whose frame storage cannot be obtained ends at once with AllocationFailure; buffer, lock and wire are
as before, whoever holds the lock (60_exceptions.md section 1). -/
def Obligations.AllocationFailureChangesNothing : Prop :=
  ∀ (s : State) (led : Nat) (ch0 ch1 ch2 : Byte), s.Inv → s.up = true → led < s.chips →
    s.phase s.agent = .idle → s.alloc = .fail →
    exec (.update led ch0 ch1 ch2) s = .next { s with
      reqs := Requests.set s.reqs s.agent
        { phase := .done, req := none, px := none, slotDone := false, frame := none,
          status := some .allocationFailure }
      result := .status .allocationFailure }

/-- An `UPDATE` made while another request holds the lock waits for it, with no effect on buffer, lock and wire
(log entry 7). -/
def Obligations.UpdateWaitsForAHeldLock : Prop :=
  ∀ (s : State) (led : Nat) (ch0 ch1 ch2 : Byte) (p : Nat), s.Inv → s.up = true → led < s.chips →
    s.phase s.agent = .idle → s.alloc = .ok → s.lock = .held p →
    exec (.update led ch0 ch1 ch2) s = .next { s with
      reqs := Requests.set s.reqs s.agent
        { phase := .wait, req := some ⟨led, ch0, ch1, ch2⟩, px := none, slotDone := false, frame := none,
          status := none }
      result := .waiting }

/-- An `UPDATE` whose write the transport does not answer stays in SEND with the lock held, its slot written and its
frame handed over (42_composer.md section 2; log entry 26). -/
def Obligations.UnansweredUpdateKeepsTheLock : Prop :=
  ∀ (s : State) (led : Nat) (ch0 ch1 ch2 : Byte), s.Inv → s.up = true → led < s.chips →
    s.phase s.agent = .idle → s.lock = .free → s.alloc = .ok → s.tx = none →
    ∃ t, exec (.update led ch0 ch1 ch2) s = .next t ∧
      (∀ j < 9, Memory.read t.buf (9 * led + j) = (encodePixel ch0 ch1 ch2).bytes[j]?) ∧
      (∀ a, a < 9 * led ∨ 9 * led + 9 ≤ a → Memory.read t.buf a = Memory.read s.buf a) ∧
      t = { s with
        buf := t.buf
        lock := .held s.agent
        reqs := Requests.set s.reqs s.agent
          { phase := .send, req := some ⟨led, ch0, ch1, ch2⟩, px := some (encodePixel ch0 ch1 ch2), slotDone := true,
            frame := some ([0x00#8] ++ t.contents ++ [0x00#8]), status := none }
        order := s.order ++ [⟨s.agent, ⟨led, ch0, ch1, ch2⟩⟩]
        result := .waiting }

/-- A request for a position without an endpoint (so any request while the block is down), and a request under a name
already used, is dropped without a step of the block (30_encoding.md section 4; log entries 5 and 17). -/
def Obligations.RequestWithoutEndpointIsDropped : Prop :=
  ∀ (s : State) (led : Nat) (ch0 ch1 ch2 : Byte), s.Inv → (s.chips ≤ led ∨ s.phase s.agent ≠ .idle) →
    exec (.update led ch0 ch1 ch2) s = .next { s with result := .noStep }

/-- The big step agrees with the small steps (43_update.md sections 1 and 3): an `UPDATE` leaves the block as its
request's invocation and five small steps leave it, whatever the environment answers and whoever holds the lock. That
`UPDATE` runs until its request is DONE or must wait, on which the cases of a held lock and of a silent transport rest,
is the model's reading (log entry 7). -/
def Obligations.UpdateEqualsItsSmallSteps : Prop :=
  ∀ (s : State) (led : Nat) (ch0 ch1 ch2 : Byte), s.Inv → s.phase s.agent = .idle →
    ∃ t u : State, exec (.update led ch0 ch1 ch2) s = .next t ∧
      Sys2Proof.core.run 6 (s.withAgenda (turnOf s s.agent (.invoke led ch0 ch1 ch2) ::
        List.replicate 5 (turnOf s s.agent .advance))) = .next u ∧
      u.block = t.block

/-- The big step agrees with the operations it is written with (43_update.md section 1): invocation, frame resource
check, `LOCK_ACQ`, `ENC_PX`, `SLOT_WR`, `COMPOSE`, `XMIT`, `LOCK_REL`, one turn each. It rests on `ENC_PX` latching
`px` (log entry 8), on the mark that `SLOT_WR` leaves (log entry 9) and on log entry 7, the model's own. -/
def Obligations.UpdateEqualsItsOperationsInOrder : Prop :=
  ∀ (s : State) (led : Nat) (ch0 ch1 ch2 : Byte) (r : TransportAnswer), s.Inv → s.up = true → led < s.chips →
    s.phase s.agent = .idle → s.lock = .free → s.alloc = .ok → s.tx = some r →
    ∃ t u : State, exec (.update led ch0 ch1 ch2) s = .next t ∧
      Sys2Proof.core.run 8 (s.withAgenda
        [turnOf s s.agent (.invoke led ch0 ch1 ch2), turnOf s s.agent .advance,
         turnOf s s.agent (.present (encode .lockAcq)), turnOf s s.agent (.present (encode (.encPx ch0 ch1 ch2))),
         turnOf s s.agent (.present (encode .slotWr)), turnOf s s.agent (.present (encode .compose)),
         turnOf s s.agent (.present (encode .xmit)), turnOf s s.agent (.present (encode .lockRel))]) = .next u ∧
      u.block = t.block

/-- Two waiting requests for different positions (43_update.md section 4): in either lock order both frames are
written, the final buffer is the same, the first frame is the buffer with the first pixel alone written, and the last is
the final buffer, each between the pads. -/
def Obligations.LockOrderDoesNotChangeTheFinalBuffer : Prop :=
  ∀ (s : State) (p q : Nat) (lp lq : ReqLatch) (r : TransportAnswer), s.Inv → s.lock = .free → p ≠ q →
    s.phase p = .wait → s.phase q = .wait →
    (s.request p).req = some lp → (s.request q).req = some lq → lp.led ≠ lq.led → s.tx = some r →
    ∃ (t u : State) (m n : Memory),
      Sys2Proof.core.run 8 (s.withAgenda
        (List.replicate 4 (turnOf s p .advance) ++ List.replicate 4 (turnOf s q .advance))) = .next t ∧
      Sys2Proof.core.run 8 (s.withAgenda
        (List.replicate 4 (turnOf s q .advance) ++ List.replicate 4 (turnOf s p .advance))) = .next u ∧
      t.buf = u.buf ∧
      Memory.writeBytes s.buf (slotAddress lp.led) lp.pixel.bytes = some m ∧
      Memory.writeBytes s.buf (slotAddress lq.led) lq.pixel.bytes = some n ∧
      t.wire = s.wire ++ [⟨p, [0x00#8] ++ m.map Prod.snd ++ [0x00#8], r⟩, ⟨q, [0x00#8] ++ t.contents ++ [0x00#8], r⟩] ∧
      u.wire = s.wire ++ [⟨q, [0x00#8] ++ n.map Prod.snd ++ [0x00#8], r⟩, ⟨p, [0x00#8] ++ t.contents ++ [0x00#8], r⟩] ∧
      Memory.readBytes t.buf (9 * lp.led) 9 = some lp.pixel.bytes ∧
      Memory.readBytes t.buf (9 * lq.led) 9 = some lq.pixel.bytes

/-- A waiting request that is given the lock and whose write is answered ends, with the status of the answer and the
lock free: the two named assumptions of 43_update.md section 4 (progress) suffice. -/
def Obligations.ServedRequestEnds : Prop :=
  ∀ (s : State) (q : Nat) (r : TransportAnswer), s.Inv → s.lock = .free → s.phase q = .wait → s.tx = some r →
    ∃ t : State, Sys2Proof.core.run 4 (s.withAgenda (List.replicate 4 (turnOf s q .advance))) = .next t ∧
      t.lock = .free ∧
      t.request q =
        { phase := .done, req := none, px := none, slotDone := false, frame := none, status := some r.toStatus }

/-! ### Bring-up and reset -/

/-- R152: a supported descriptor whose LEDs were all found brings the block up: topology, endpoints `0 .. N-1`, a free
lock, and a buffer of addresses `0 .. 9N-1` that holds the free value BUF_RESET of this chain context (log entries 11
and 22). Nothing else changes. -/
def Obligations.BringupCreatesBufferAndEndpoints : Prop :=
  ∀ (s : State) (n : Nat), s.up = false → n ≠ 0 →
    ∃ t, exec (.bringup n 3 9 n) s = .next t ∧
      (∀ a, Memory.read t.buf a = if a < 9 * n then some (Config.bufReset s.chain s.draws a) else none) ∧
      Memory.wf t.buf = true ∧
      t = { s with
        up := true
        topo := some ⟨n, 3, 9⟩
        endpoints := (List.range n).map Endpoint.mk
        buf := t.buf
        lock := .free
        draws := s.draws + 1
        result := .bringup .up }

/-- R131: ConfigurationMismatch, for a count of LEDs found that differs from `N` and for an unsupported descriptor:
the block stays down and nothing is created. -/
def Obligations.ConfigurationMismatchCreatesNothing : Prop :=
  ∀ (s : State) (n c b found : Nat), s.up = false → (found ≠ n ∨ n = 0 ∨ c ≠ 3 ∨ b ≠ 9) →
    exec (.bringup n c b found) s = .next { s with result := .bringup .configurationMismatch }

/-- While the block is up, `BRINGUP` is no step of it (70_reset_and_hazards.md section 2; log entry 6). -/
def Obligations.BringupOfABlockThatIsUpIsNoStep : Prop :=
  ∀ (s : State) (n c b found : Nat), s.up = true →
    exec (.bringup n c b found) s = .next { s with result := .noStep }

/-- What reset leaves (70_reset_and_hazards.md section 1, 10_state.md section 10, the spec's own decision): down, no
topology, no endpoints, no buffer, the lock free, no request made, nothing on the wire. -/
def Obligations.ResetLeavesTheBlockDown : Prop :=
  State.reset.up = false ∧ State.reset.topo = none ∧ State.reset.endpoints = [] ∧
  (∀ a, Memory.read State.reset.buf a = none) ∧ State.reset.lock = .free ∧
  (∀ q, State.reset.request q = Request.idle) ∧ State.reset.wire = []

/-- The reset event: from a state with no request in progress it leaves what reset leaves, with the schedule, the
count of draws and the name of the chain context as they were; with a request in progress it is refused (70_reset_and_hazards.md section 1; log
entry 20). -/
def Obligations.ResetEventNeedsAQuietBlock : Prop :=
  ∀ (s : State) (t : Turn) (rest : List Turn), s.agenda = t :: rest → t.act = .reset →
    ((∀ q, (s.phase q).inProgress = false) → Requests.wf s.reqs = true →
      step s = .next { State.reset with chain := s.chain, draws := s.draws, agenda := rest }) ∧
    ((∃ q, (s.phase q).inProgress = true) → step s = .refused .resetInProgress)

/-- With no turn to come the block does nothing. The agenda and its empty case are the model's choice (log entry 2);
the spec says that the block does nothing until it is invoked (70_reset_and_hazards.md section 1). -/
def Obligations.BlockWithoutTurnsStands : Prop :=
  ∀ s : State, s.agenda = [] → step s = .next s

/-! ### Whole-machine rules -/

/-- The invariant holds right after reset. -/
def Obligations.InvariantHoldsAtReset : Prop := State.reset.Inv

/-- Every step keeps the invariant: the buffer and the frames on the wire are those of the critical sections run one
after another in lock order, the lock names exactly the request that holds it, and every request's fields fit its
phase (43_update.md section 4, 20_memory.md section 4). -/
def Obligations.EveryStepKeepsTheInvariant : Prop :=
  ∀ s t : State, s.Inv → step s = .next t → t.Inv

/-- No operation of a state of the invariant addresses outside the buffer, so no step faults (20_memory.md
section 1). -/
def Obligations.NoStepAddressesOutsideTheBuffer : Prop :=
  ∀ (s : State) (r : Fault), s.Inv → step s ≠ .fault r

/-- While the block is up its topology, its endpoints and its buffer's addresses never change, and it stays up, except
by reset (10_state.md section 5, 70_reset_and_hazards.md section 2). -/
def Obligations.TopologyIsImmutableWhileUp : Prop :=
  ∀ (s t : State) (x : Turn) (rest : List Turn), s.agenda = x :: rest → x.act ≠ .reset → s.up = true →
    step s = .next t →
    t.up = true ∧ t.topo = s.topo ∧ t.endpoints = s.endpoints ∧ t.buf.map Prod.fst = s.buf.map Prod.fst ∧
    t.draws = s.draws

/-- A step concerns the acting request only, and its phase never goes back, except by reset (10_state.md section 4). -/
def Obligations.PhasesOnlyAdvance : Prop :=
  ∀ (s t : State) (x : Turn) (rest : List Turn), s.agenda = x :: rest → x.act ≠ .reset → step s = .next t →
    (∀ q, q ≠ x.agent → t.request q = s.request q) ∧ (s.phase x.agent).rank ≤ (t.phase x.agent).rank

/-- A step hands at most one frame over: the acting request's, which is the whole buffer as it stands between the
pads, with the answer the transport gives in that turn; and only the holder of the lock, or a request that finds it
free, can (20_memory.md section 4). -/
def Obligations.WireGrowsByOneWholeFrame : Prop :=
  ∀ (s t : State) (x : Turn) (rest : List Turn), s.Inv → s.agenda = x :: rest → x.act ≠ .reset → step s = .next t →
    t.wire = s.wire ∨
    ∃ r, x.tx = some r ∧ t.wire = s.wire ++ [⟨x.agent, [0x00#8] ++ t.contents ++ [0x00#8], r⟩] ∧
      (s.lock = .free ∨ s.lock = .held x.agent)

/-- No operation reads the history: with another history before it, an operation does the same and appends the same
(10_state.md section 8). -/
def Obligations.WireIsNeverRead : Prop :=
  ∀ (i : Instr) (s t : State) (ws : List WireEntry), exec i { s with wire := [] } = .next t →
    exec i { s with wire := ws } = .next { t with wire := ws ++ t.wire }

/-- No request ends holding the lock, and at the end of a run the lock is free (43_update.md section 2,
70_reset_and_hazards.md section 5). -/
def Obligations.NoRequestEndsHoldingTheLock : Prop :=
  ∀ s : State, s.Inv → (∀ q, s.phase q = .done → s.lock ≠ .held q) ∧ (s.runEnded → s.lock = .free)

/-- A hang is a transport that does not answer (43_update.md section 2, 70_reset_and_hazards.md section 5). Where no
request's agent can step, some request holds the lock in SEND, a small step without an answer changes nothing, and a
small step of that request with an answer goes on, so that such a state hangs only if the transport is silent. In a
hang no small step to come changes the block, and the hang goes on. What the LED chain shows meanwhile is unknown, by the
model's choice (log entry 24); that the agenda says whether the transport answers is log entry 26. -/
def Obligations.HangIsAnUnansweredWrite : Prop :=
  ∀ s : State, s.Inv →
    (s.requestsBlocked →
      (∃ p, s.lock = .held p ∧ s.phase p = .send) ∧ s.chainView = .unknown ∧
      ∀ (x : Turn) (rest : List Turn), s.agenda = x :: rest → x.act = .advance →
        (x.tx = none → ∃ t, step s = .next t ∧ t.block = s.block) ∧
        ∀ r, x.tx = some r → s.phase x.agent = .send →
          ¬ s.Hung ∧ ∃ t, step s = .next t ∧ t.phase x.agent = .rel ∧ ¬ t.requestsBlocked) ∧
    (s.Hung → ∀ (x : Turn) (rest : List Turn), s.agenda = x :: rest → x.act = .advance →
      ∃ t, step s = .next t ∧ t.block = s.block ∧ t.Hung)

/-- Once every position has a slot write, the buffer is the encoded pixels of `N` positions in order, and every frame
that a request has composed is a zero, these `N` encoded pixels and a zero (70_reset_and_hazards.md section 2). -/
def Obligations.FramesAreValidOnceEverySlotIsWritten : Prop :=
  ∀ s : State, s.Inv → (∀ i < s.chips, ∃ c ∈ s.committed, c.req.led = i) →
    ∃ ls : List ReqLatch, ls.length = s.chips ∧ (∀ (i : Nat) (l : ReqLatch), ls[i]? = some l → l.led = i) ∧
      s.contents = (ls.flatMap fun l => l.pixel.bytes) ∧
      ∀ (q : Nat) (f : List Byte), (s.request q).frame = some f →
        f = [0x00#8] ++ (ls.flatMap fun l => l.pixel.bytes) ++ [0x00#8]

/-- After an `UPDATE` answered `ok` the LEDs were sent the whole buffer as it stands; after one answered `fail(e)` what
they show is unknown, although the slot holds the new pixel (42_composer.md section 2, 70_reset_and_hazards.md
section 3; log entry 24). -/
def Obligations.BufferAndLedsCanDisagreeAfterAFailure : Prop :=
  ∀ (s t : State) (led : Nat) (ch0 ch1 ch2 : Byte) (r : TransportAnswer), s.Inv → s.up = true → led < s.chips →
    s.phase s.agent = .idle → s.lock = .free → s.alloc = .ok → s.tx = some r →
    exec (.update led ch0 ch1 ch2) s = .next t →
    Memory.readBytes t.buf (9 * led) 9 = some (encodePixel ch0 ch1 ch2).bytes ∧
    (r = .ok → t.chainView = .sent ([0x00#8] ++ t.contents ++ [0x00#8])) ∧
    (∀ e, r = .fail e → t.chainView = .unknown)

/-- The response: codes 0, 1 and 2, the failure value after code 2 and only there, and code and value determine the
status (60_exceptions.md section 1, the spec's own coding). -/
def Obligations.ResponseDeterminesTheStatus : Prop :=
  (Status.code .ok = 0#2 ∧ Status.code .allocationFailure = 1#2 ∧
    (∀ e, Status.code (.transmissionFailure e) = 2#2 ∧ Status.failureValue (.transmissionFailure e) = some e) ∧
    BringupResult.code .configurationMismatch = some 3#2) ∧
  ∀ st st' : Status, st.code = st'.code → st.failureValue = st'.failureValue → st = st'

/-- A step of one chain context leaves every other as it was, and does what the chain's own step does (20_memory.md
section 4). The product, the names of the chain contexts, which are distinct at reset and which every step keeps, and so
that no two draw one BUF_RESET, are the model's form of it (log entries 11 and 22). -/
def Obligations.ChainsAreIndependent : Prop :=
  (∀ n : Nat, ((chainsAtReset n).map State.chain).Nodup) ∧
  (∀ (k : Nat) (chains later : List State), stepChain k chains = .next later →
    later.map State.chain = chains.map State.chain ∧ later.length = chains.length ∧
      ∀ j, j ≠ k → later[j]? = chains[j]?) ∧
  ∀ (k : Nat) (chains : List State) (s t : State), chains[k]? = some s → step s = .next t →
    ∃ later, stepChain k chains = .next later ∧ later[k]? = some t
end

