-- ==== Sys2Proof/Laws/State.lean ====
section
/-! SUPPORT. One lemma per field per update of the state, so that no later proof unfolds a record update. -/

namespace Sys2Proof.Machine

variable (s : State)

/-! ### `State.answers` -/

@[simp] theorem State.answers_up (r : Result) : (s.answers r).up = s.up := rfl
@[simp] theorem State.answers_topo (r : Result) : (s.answers r).topo = s.topo := rfl
@[simp] theorem State.answers_endpoints (r : Result) : (s.answers r).endpoints = s.endpoints := rfl
@[simp] theorem State.answers_buf (r : Result) : (s.answers r).buf = s.buf := rfl
@[simp] theorem State.answers_lock (r : Result) : (s.answers r).lock = s.lock := rfl
@[simp] theorem State.answers_reqs (r : Result) : (s.answers r).reqs = s.reqs := rfl
@[simp] theorem State.answers_wire (r : Result) : (s.answers r).wire = s.wire := rfl
@[simp] theorem State.answers_order (r : Result) : (s.answers r).order = s.order := rfl
@[simp] theorem State.answers_chain (r : Result) : (s.answers r).chain = s.chain := rfl
@[simp] theorem State.answers_draws (r : Result) : (s.answers r).draws = s.draws := rfl
@[simp] theorem State.answers_agent (r : Result) : (s.answers r).agent = s.agent := rfl
@[simp] theorem State.answers_alloc (r : Result) : (s.answers r).alloc = s.alloc := rfl
@[simp] theorem State.answers_tx (r : Result) : (s.answers r).tx = s.tx := rfl
@[simp] theorem State.answers_agenda (r : Result) : (s.answers r).agenda = s.agenda := rfl
@[simp] theorem State.answers_result (r : Result) : (s.answers r).result = r := rfl

/-! ### `State.setRequest` -/

@[simp] theorem State.setRequest_up (q : Nat) (r : Request) : (s.setRequest q r).up = s.up := rfl
@[simp] theorem State.setRequest_topo (q : Nat) (r : Request) : (s.setRequest q r).topo = s.topo := rfl
@[simp] theorem State.setRequest_endpoints (q : Nat) (r : Request) : (s.setRequest q r).endpoints = s.endpoints := rfl
@[simp] theorem State.setRequest_buf (q : Nat) (r : Request) : (s.setRequest q r).buf = s.buf := rfl
@[simp] theorem State.setRequest_lock (q : Nat) (r : Request) : (s.setRequest q r).lock = s.lock := rfl
@[simp] theorem State.setRequest_reqs (q : Nat) (r : Request) : (s.setRequest q r).reqs = Requests.set s.reqs q r := rfl
@[simp] theorem State.setRequest_wire (q : Nat) (r : Request) : (s.setRequest q r).wire = s.wire := rfl
@[simp] theorem State.setRequest_order (q : Nat) (r : Request) : (s.setRequest q r).order = s.order := rfl
@[simp] theorem State.setRequest_chain (q : Nat) (r : Request) : (s.setRequest q r).chain = s.chain := rfl
@[simp] theorem State.setRequest_draws (q : Nat) (r : Request) : (s.setRequest q r).draws = s.draws := rfl
@[simp] theorem State.setRequest_agent (q : Nat) (r : Request) : (s.setRequest q r).agent = s.agent := rfl
@[simp] theorem State.setRequest_alloc (q : Nat) (r : Request) : (s.setRequest q r).alloc = s.alloc := rfl
@[simp] theorem State.setRequest_tx (q : Nat) (r : Request) : (s.setRequest q r).tx = s.tx := rfl
@[simp] theorem State.setRequest_agenda (q : Nat) (r : Request) : (s.setRequest q r).agenda = s.agenda := rfl
@[simp] theorem State.setRequest_result (q : Nat) (r : Request) : (s.setRequest q r).result = s.result := rfl

/-! ### `State.endRequest` -/

@[simp] theorem State.endRequest_up (q : Nat) (st : Option Status) : (s.endRequest q st).up = s.up := rfl
@[simp] theorem State.endRequest_topo (q : Nat) (st : Option Status) : (s.endRequest q st).topo = s.topo := rfl
@[simp] theorem State.endRequest_endpoints (q : Nat) (st : Option Status) : (s.endRequest q st).endpoints = s.endpoints := rfl
@[simp] theorem State.endRequest_buf (q : Nat) (st : Option Status) : (s.endRequest q st).buf = s.buf := rfl
@[simp] theorem State.endRequest_lock (q : Nat) (st : Option Status) : (s.endRequest q st).lock = s.lock := rfl
@[simp] theorem State.endRequest_reqs (q : Nat) (st : Option Status) : (s.endRequest q st).reqs = Requests.set s.reqs q { Request.idle with phase := .done, status := st } := rfl
@[simp] theorem State.endRequest_wire (q : Nat) (st : Option Status) : (s.endRequest q st).wire = s.wire := rfl
@[simp] theorem State.endRequest_order (q : Nat) (st : Option Status) : (s.endRequest q st).order = s.order := rfl
@[simp] theorem State.endRequest_chain (q : Nat) (st : Option Status) : (s.endRequest q st).chain = s.chain := rfl
@[simp] theorem State.endRequest_draws (q : Nat) (st : Option Status) : (s.endRequest q st).draws = s.draws := rfl
@[simp] theorem State.endRequest_agent (q : Nat) (st : Option Status) : (s.endRequest q st).agent = s.agent := rfl
@[simp] theorem State.endRequest_alloc (q : Nat) (st : Option Status) : (s.endRequest q st).alloc = s.alloc := rfl
@[simp] theorem State.endRequest_tx (q : Nat) (st : Option Status) : (s.endRequest q st).tx = s.tx := rfl
@[simp] theorem State.endRequest_agenda (q : Nat) (st : Option Status) : (s.endRequest q st).agenda = s.agenda := rfl
@[simp] theorem State.endRequest_result (q : Nat) (st : Option Status) : (s.endRequest q st).result = s.result := rfl

/-! ### `State.beginTurn` -/

@[simp] theorem State.beginTurn_up (t : Turn) (rest : List Turn) : (s.beginTurn t rest).up = s.up := rfl
@[simp] theorem State.beginTurn_topo (t : Turn) (rest : List Turn) : (s.beginTurn t rest).topo = s.topo := rfl
@[simp] theorem State.beginTurn_endpoints (t : Turn) (rest : List Turn) : (s.beginTurn t rest).endpoints = s.endpoints := rfl
@[simp] theorem State.beginTurn_buf (t : Turn) (rest : List Turn) : (s.beginTurn t rest).buf = s.buf := rfl
@[simp] theorem State.beginTurn_lock (t : Turn) (rest : List Turn) : (s.beginTurn t rest).lock = s.lock := rfl
@[simp] theorem State.beginTurn_reqs (t : Turn) (rest : List Turn) : (s.beginTurn t rest).reqs = s.reqs := rfl
@[simp] theorem State.beginTurn_wire (t : Turn) (rest : List Turn) : (s.beginTurn t rest).wire = s.wire := rfl
@[simp] theorem State.beginTurn_order (t : Turn) (rest : List Turn) : (s.beginTurn t rest).order = s.order := rfl
@[simp] theorem State.beginTurn_chain (t : Turn) (rest : List Turn) : (s.beginTurn t rest).chain = s.chain := rfl
@[simp] theorem State.beginTurn_draws (t : Turn) (rest : List Turn) : (s.beginTurn t rest).draws = s.draws := rfl
@[simp] theorem State.beginTurn_agent (t : Turn) (rest : List Turn) : (s.beginTurn t rest).agent = t.agent := rfl
@[simp] theorem State.beginTurn_alloc (t : Turn) (rest : List Turn) : (s.beginTurn t rest).alloc = t.alloc := rfl
@[simp] theorem State.beginTurn_tx (t : Turn) (rest : List Turn) : (s.beginTurn t rest).tx = t.tx := rfl
@[simp] theorem State.beginTurn_agenda (t : Turn) (rest : List Turn) : (s.beginTurn t rest).agenda = rest := rfl
@[simp] theorem State.beginTurn_result (t : Turn) (rest : List Turn) : (s.beginTurn t rest).result = s.result := rfl

/-! ### `State.withAgenda` -/

@[simp] theorem State.withAgenda_up (ts : List Turn) : (s.withAgenda ts).up = s.up := rfl
@[simp] theorem State.withAgenda_topo (ts : List Turn) : (s.withAgenda ts).topo = s.topo := rfl
@[simp] theorem State.withAgenda_endpoints (ts : List Turn) : (s.withAgenda ts).endpoints = s.endpoints := rfl
@[simp] theorem State.withAgenda_buf (ts : List Turn) : (s.withAgenda ts).buf = s.buf := rfl
@[simp] theorem State.withAgenda_lock (ts : List Turn) : (s.withAgenda ts).lock = s.lock := rfl
@[simp] theorem State.withAgenda_reqs (ts : List Turn) : (s.withAgenda ts).reqs = s.reqs := rfl
@[simp] theorem State.withAgenda_wire (ts : List Turn) : (s.withAgenda ts).wire = s.wire := rfl
@[simp] theorem State.withAgenda_order (ts : List Turn) : (s.withAgenda ts).order = s.order := rfl
@[simp] theorem State.withAgenda_chain (ts : List Turn) : (s.withAgenda ts).chain = s.chain := rfl
@[simp] theorem State.withAgenda_draws (ts : List Turn) : (s.withAgenda ts).draws = s.draws := rfl
@[simp] theorem State.withAgenda_agent (ts : List Turn) : (s.withAgenda ts).agent = s.agent := rfl
@[simp] theorem State.withAgenda_alloc (ts : List Turn) : (s.withAgenda ts).alloc = s.alloc := rfl
@[simp] theorem State.withAgenda_tx (ts : List Turn) : (s.withAgenda ts).tx = s.tx := rfl
@[simp] theorem State.withAgenda_agenda (ts : List Turn) : (s.withAgenda ts).agenda = ts := rfl
@[simp] theorem State.withAgenda_result (ts : List Turn) : (s.withAgenda ts).result = s.result := rfl

/-! ### `State.reporting` -/

@[simp] theorem State.reporting_up (q : Nat) : (s.reporting q).up = s.up := rfl
@[simp] theorem State.reporting_topo (q : Nat) : (s.reporting q).topo = s.topo := rfl
@[simp] theorem State.reporting_endpoints (q : Nat) : (s.reporting q).endpoints = s.endpoints := rfl
@[simp] theorem State.reporting_buf (q : Nat) : (s.reporting q).buf = s.buf := rfl
@[simp] theorem State.reporting_lock (q : Nat) : (s.reporting q).lock = s.lock := rfl
@[simp] theorem State.reporting_reqs (q : Nat) : (s.reporting q).reqs = s.reqs := rfl
@[simp] theorem State.reporting_wire (q : Nat) : (s.reporting q).wire = s.wire := rfl
@[simp] theorem State.reporting_order (q : Nat) : (s.reporting q).order = s.order := rfl
@[simp] theorem State.reporting_chain (q : Nat) : (s.reporting q).chain = s.chain := rfl
@[simp] theorem State.reporting_draws (q : Nat) : (s.reporting q).draws = s.draws := rfl
@[simp] theorem State.reporting_agent (q : Nat) : (s.reporting q).agent = s.agent := rfl
@[simp] theorem State.reporting_alloc (q : Nat) : (s.reporting q).alloc = s.alloc := rfl
@[simp] theorem State.reporting_tx (q : Nat) : (s.reporting q).tx = s.tx := rfl
@[simp] theorem State.reporting_agenda (q : Nat) : (s.reporting q).agenda = s.agenda := rfl
@[simp] theorem State.reporting_result (q : Nat) : (s.reporting q).result = s.report q := rfl

/-! ### `State.block` -/

@[simp] theorem State.block_up : (s.block).up = s.up := rfl
@[simp] theorem State.block_topo : (s.block).topo = s.topo := rfl
@[simp] theorem State.block_endpoints : (s.block).endpoints = s.endpoints := rfl
@[simp] theorem State.block_buf : (s.block).buf = s.buf := rfl
@[simp] theorem State.block_lock : (s.block).lock = s.lock := rfl
@[simp] theorem State.block_reqs : (s.block).reqs = s.reqs := rfl
@[simp] theorem State.block_wire : (s.block).wire = s.wire := rfl
@[simp] theorem State.block_order : (s.block).order = s.order := rfl
@[simp] theorem State.block_chain : (s.block).chain = s.chain := rfl
@[simp] theorem State.block_draws : (s.block).draws = s.draws := rfl
@[simp] theorem State.block_agent : (s.block).agent = 0 := rfl
@[simp] theorem State.block_alloc : (s.block).alloc = .ok := rfl
@[simp] theorem State.block_tx : (s.block).tx = none := rfl
@[simp] theorem State.block_agenda : (s.block).agenda = [] := rfl
@[simp] theorem State.block_result : (s.block).result = .none := rfl

/-! ### `State.setLock` -/

@[simp] theorem State.setLock_up (l : Lock) : (s.setLock l).up = s.up := rfl
@[simp] theorem State.setLock_topo (l : Lock) : (s.setLock l).topo = s.topo := rfl
@[simp] theorem State.setLock_endpoints (l : Lock) : (s.setLock l).endpoints = s.endpoints := rfl
@[simp] theorem State.setLock_buf (l : Lock) : (s.setLock l).buf = s.buf := rfl
@[simp] theorem State.setLock_lock (l : Lock) : (s.setLock l).lock = l := rfl
@[simp] theorem State.setLock_reqs (l : Lock) : (s.setLock l).reqs = s.reqs := rfl
@[simp] theorem State.setLock_wire (l : Lock) : (s.setLock l).wire = s.wire := rfl
@[simp] theorem State.setLock_order (l : Lock) : (s.setLock l).order = s.order := rfl
@[simp] theorem State.setLock_chain (l : Lock) : (s.setLock l).chain = s.chain := rfl
@[simp] theorem State.setLock_draws (l : Lock) : (s.setLock l).draws = s.draws := rfl
@[simp] theorem State.setLock_agent (l : Lock) : (s.setLock l).agent = s.agent := rfl
@[simp] theorem State.setLock_alloc (l : Lock) : (s.setLock l).alloc = s.alloc := rfl
@[simp] theorem State.setLock_tx (l : Lock) : (s.setLock l).tx = s.tx := rfl
@[simp] theorem State.setLock_agenda (l : Lock) : (s.setLock l).agenda = s.agenda := rfl
@[simp] theorem State.setLock_result (l : Lock) : (s.setLock l).result = s.result := rfl
@[simp] theorem State.setLock_request (l : Lock) (q : Nat) : (s.setLock l).request q = s.request q := rfl
@[simp] theorem State.setLock_phase (l : Lock) (q : Nat) : (s.setLock l).phase q = s.phase q := rfl
@[simp] theorem State.setLock_bufLength (l : Lock) : (s.setLock l).bufLength = s.bufLength := rfl
@[simp] theorem State.setLock_chips (l : Lock) : (s.setLock l).chips = s.chips := rfl
@[simp] theorem State.setLock_contents (l : Lock) : (s.setLock l).contents = s.contents := rfl

/-! ### `State.setBuf` -/

@[simp] theorem State.setBuf_up (m : List Host.Cell) : (s.setBuf m).up = s.up := rfl
@[simp] theorem State.setBuf_topo (m : List Host.Cell) : (s.setBuf m).topo = s.topo := rfl
@[simp] theorem State.setBuf_endpoints (m : List Host.Cell) : (s.setBuf m).endpoints = s.endpoints := rfl
@[simp] theorem State.setBuf_buf (m : List Host.Cell) : (s.setBuf m).buf = m := rfl
@[simp] theorem State.setBuf_lock (m : List Host.Cell) : (s.setBuf m).lock = s.lock := rfl
@[simp] theorem State.setBuf_reqs (m : List Host.Cell) : (s.setBuf m).reqs = s.reqs := rfl
@[simp] theorem State.setBuf_wire (m : List Host.Cell) : (s.setBuf m).wire = s.wire := rfl
@[simp] theorem State.setBuf_order (m : List Host.Cell) : (s.setBuf m).order = s.order := rfl
@[simp] theorem State.setBuf_chain (m : List Host.Cell) : (s.setBuf m).chain = s.chain := rfl
@[simp] theorem State.setBuf_draws (m : List Host.Cell) : (s.setBuf m).draws = s.draws := rfl
@[simp] theorem State.setBuf_agent (m : List Host.Cell) : (s.setBuf m).agent = s.agent := rfl
@[simp] theorem State.setBuf_alloc (m : List Host.Cell) : (s.setBuf m).alloc = s.alloc := rfl
@[simp] theorem State.setBuf_tx (m : List Host.Cell) : (s.setBuf m).tx = s.tx := rfl
@[simp] theorem State.setBuf_agenda (m : List Host.Cell) : (s.setBuf m).agenda = s.agenda := rfl
@[simp] theorem State.setBuf_result (m : List Host.Cell) : (s.setBuf m).result = s.result := rfl
@[simp] theorem State.setBuf_request (m : List Host.Cell) (q : Nat) : (s.setBuf m).request q = s.request q := rfl
@[simp] theorem State.setBuf_phase (m : List Host.Cell) (q : Nat) : (s.setBuf m).phase q = s.phase q := rfl
@[simp] theorem State.setBuf_bufLength (m : List Host.Cell) : (s.setBuf m).bufLength = s.bufLength := rfl
@[simp] theorem State.setBuf_chips (m : List Host.Cell) : (s.setBuf m).chips = s.chips := rfl
@[simp] theorem State.setBuf_contents (m : List Host.Cell) : (s.setBuf m).contents = m.map Prod.snd := rfl

/-! ### `State.appendWire` -/

@[simp] theorem State.appendWire_up (w : WireEntry) : (s.appendWire w).up = s.up := rfl
@[simp] theorem State.appendWire_topo (w : WireEntry) : (s.appendWire w).topo = s.topo := rfl
@[simp] theorem State.appendWire_endpoints (w : WireEntry) : (s.appendWire w).endpoints = s.endpoints := rfl
@[simp] theorem State.appendWire_buf (w : WireEntry) : (s.appendWire w).buf = s.buf := rfl
@[simp] theorem State.appendWire_lock (w : WireEntry) : (s.appendWire w).lock = s.lock := rfl
@[simp] theorem State.appendWire_reqs (w : WireEntry) : (s.appendWire w).reqs = s.reqs := rfl
@[simp] theorem State.appendWire_wire (w : WireEntry) : (s.appendWire w).wire = s.wire ++ [w] := rfl
@[simp] theorem State.appendWire_order (w : WireEntry) : (s.appendWire w).order = s.order := rfl
@[simp] theorem State.appendWire_chain (w : WireEntry) : (s.appendWire w).chain = s.chain := rfl
@[simp] theorem State.appendWire_draws (w : WireEntry) : (s.appendWire w).draws = s.draws := rfl
@[simp] theorem State.appendWire_agent (w : WireEntry) : (s.appendWire w).agent = s.agent := rfl
@[simp] theorem State.appendWire_alloc (w : WireEntry) : (s.appendWire w).alloc = s.alloc := rfl
@[simp] theorem State.appendWire_tx (w : WireEntry) : (s.appendWire w).tx = s.tx := rfl
@[simp] theorem State.appendWire_agenda (w : WireEntry) : (s.appendWire w).agenda = s.agenda := rfl
@[simp] theorem State.appendWire_result (w : WireEntry) : (s.appendWire w).result = s.result := rfl
@[simp] theorem State.appendWire_request (w : WireEntry) (q : Nat) : (s.appendWire w).request q = s.request q := rfl
@[simp] theorem State.appendWire_phase (w : WireEntry) (q : Nat) : (s.appendWire w).phase q = s.phase q := rfl
@[simp] theorem State.appendWire_bufLength (w : WireEntry) : (s.appendWire w).bufLength = s.bufLength := rfl
@[simp] theorem State.appendWire_chips (w : WireEntry) : (s.appendWire w).chips = s.chips := rfl
@[simp] theorem State.appendWire_contents (w : WireEntry) : (s.appendWire w).contents = s.contents := rfl

/-! ### `State.appendOrder` -/

@[simp] theorem State.appendOrder_up (cs : List CriticalSection) : (s.appendOrder cs).up = s.up := rfl
@[simp] theorem State.appendOrder_topo (cs : List CriticalSection) : (s.appendOrder cs).topo = s.topo := rfl
@[simp] theorem State.appendOrder_endpoints (cs : List CriticalSection) : (s.appendOrder cs).endpoints = s.endpoints := rfl
@[simp] theorem State.appendOrder_buf (cs : List CriticalSection) : (s.appendOrder cs).buf = s.buf := rfl
@[simp] theorem State.appendOrder_lock (cs : List CriticalSection) : (s.appendOrder cs).lock = s.lock := rfl
@[simp] theorem State.appendOrder_reqs (cs : List CriticalSection) : (s.appendOrder cs).reqs = s.reqs := rfl
@[simp] theorem State.appendOrder_wire (cs : List CriticalSection) : (s.appendOrder cs).wire = s.wire := rfl
@[simp] theorem State.appendOrder_order (cs : List CriticalSection) : (s.appendOrder cs).order = s.order ++ cs := rfl
@[simp] theorem State.appendOrder_chain (cs : List CriticalSection) : (s.appendOrder cs).chain = s.chain := rfl
@[simp] theorem State.appendOrder_draws (cs : List CriticalSection) : (s.appendOrder cs).draws = s.draws := rfl
@[simp] theorem State.appendOrder_agent (cs : List CriticalSection) : (s.appendOrder cs).agent = s.agent := rfl
@[simp] theorem State.appendOrder_alloc (cs : List CriticalSection) : (s.appendOrder cs).alloc = s.alloc := rfl
@[simp] theorem State.appendOrder_tx (cs : List CriticalSection) : (s.appendOrder cs).tx = s.tx := rfl
@[simp] theorem State.appendOrder_agenda (cs : List CriticalSection) : (s.appendOrder cs).agenda = s.agenda := rfl
@[simp] theorem State.appendOrder_result (cs : List CriticalSection) : (s.appendOrder cs).result = s.result := rfl
@[simp] theorem State.appendOrder_request (cs : List CriticalSection) (q : Nat) : (s.appendOrder cs).request q = s.request q := rfl
@[simp] theorem State.appendOrder_phase (cs : List CriticalSection) (q : Nat) : (s.appendOrder cs).phase q = s.phase q := rfl
@[simp] theorem State.appendOrder_bufLength (cs : List CriticalSection) : (s.appendOrder cs).bufLength = s.bufLength := rfl
@[simp] theorem State.appendOrder_chips (cs : List CriticalSection) : (s.appendOrder cs).chips = s.chips := rfl
@[simp] theorem State.appendOrder_contents (cs : List CriticalSection) : (s.appendOrder cs).contents = s.contents := rfl

/-! ### Readings that depend on one field only -/

@[simp] theorem State.answers_request (r : Result) (q : Nat) : (s.answers r).request q = s.request q := rfl
@[simp] theorem State.answers_phase (r : Result) (q : Nat) : (s.answers r).phase q = s.phase q := rfl
@[simp] theorem State.answers_bufLength (r : Result) : (s.answers r).bufLength = s.bufLength := rfl
@[simp] theorem State.answers_chips (r : Result) : (s.answers r).chips = s.chips := rfl
@[simp] theorem State.answers_contents (r : Result) : (s.answers r).contents = s.contents := rfl
@[simp] theorem State.setRequest_bufLength (q : Nat) (r : Request) : (s.setRequest q r).bufLength = s.bufLength := rfl
@[simp] theorem State.setRequest_chips (q : Nat) (r : Request) : (s.setRequest q r).chips = s.chips := rfl
@[simp] theorem State.setRequest_contents (q : Nat) (r : Request) : (s.setRequest q r).contents = s.contents := rfl
@[simp] theorem State.setRequest_resetBuffer (q : Nat) (r : Request) :
    (s.setRequest q r).resetBuffer = s.resetBuffer := rfl
@[simp] theorem State.setRequest_wholeBuffer (q : Nat) (r : Request) :
    (s.setRequest q r).wholeBuffer = s.wholeBuffer := rfl
@[simp] theorem State.beginTurn_request (t : Turn) (rest : List Turn) (q : Nat) :
    (s.beginTurn t rest).request q = s.request q := rfl
@[simp] theorem State.beginTurn_phase (t : Turn) (rest : List Turn) (q : Nat) :
    (s.beginTurn t rest).phase q = s.phase q := rfl
@[simp] theorem State.block_request (q : Nat) : s.block.request q = s.request q := rfl
@[simp] theorem State.block_phase (q : Nat) : s.block.phase q = s.phase q := rfl
@[simp] theorem State.block_answers (r : Result) : (s.answers r).block = s.block := rfl
@[simp] theorem State.block_reporting (q : Nat) : (s.reporting q).block = s.block := rfl
@[simp] theorem State.block_beginTurn (t : Turn) (rest : List Turn) : (s.beginTurn t rest).block = s.block := rfl
@[simp] theorem State.block_withAgenda (ts : List Turn) : (s.withAgenda ts).block = s.block := rfl
theorem State.reporting_eq (q : Nat) : s.reporting q = s.answers (s.report q) := rfl

end Sys2Proof.Machine
end

