-- ==== Sys2Proof/Laws/Memory.lean ====
section
/-! SUPPORT. The buffer: read after write, which addresses exist, the canonical form, and the whole-buffer read. -/

namespace Sys2Proof.Machine

/-- A write to an existing address succeeds, and only there. -/
theorem Memory.put_isSome (m : Memory) (a : Nat) (v : Byte) :
    (m.put a v).isSome = true ↔ a ∈ m.map Prod.fst := by
  induction m with
  | nil => simp [Memory.put]
  | cons c m ih =>
    obtain ⟨k, b⟩ := c
    by_cases h : k = a
    · simp [Memory.put, h]
    · simp [Memory.put, h, ih, Ne.symm h]

/-- A byte can be read at the existing addresses, and only there. -/
theorem Memory.read_isSome (m : Memory) (a : Nat) : (m.read a).isSome = true ↔ a ∈ m.map Prod.fst := by
  induction m with
  | nil => simp [Memory.read]
  | cons c m ih =>
    obtain ⟨k, b⟩ := c
    by_cases h : k = a
    · simp [Memory.read, h]
    · simp [Memory.read, h, ih, Ne.symm h]

/-- What a one-byte write does: the address reads as written, every other address reads as before, and the addresses
are the same. -/
theorem Memory.put_spec {m m' : Memory} {a : Nat} {v : Byte} (h : m.put a v = some m') :
    (∀ x, m'.read x = if x = a then some v else m.read x) ∧ m'.map Prod.fst = m.map Prod.fst := by
  induction m generalizing m' with
  | nil => simp [Memory.put] at h
  | cons c m ih =>
    obtain ⟨k, b⟩ := c
    by_cases hk : k = a
    · simp only [Memory.put, hk, if_true, Option.some.injEq] at h
      subst h
      refine ⟨fun x => ?_, by simp [hk]⟩
      by_cases hx : x = a
      · simp [Memory.read, hx]
      · simp [Memory.read, hx, Ne.symm hx, hk]
    · simp only [Memory.put, hk, if_false, Option.map_eq_some_iff] at h
      obtain ⟨m1, h1, rfl⟩ := h
      obtain ⟨hr, hks⟩ := ih h1
      refine ⟨fun x => ?_, by simp [hks]⟩
      by_cases hx : k = x
      · simp [Memory.read, hx, show x ≠ a from fun e => hk (hx.trans e)]
      · simp [Memory.read, hx, hr]

/-- What a write of several bytes does: byte `j` is read at address `a + j`, every address outside reads as before, and
the addresses are the same. -/
theorem Memory.writeBytes_spec (vs : List Byte) {m m' : Memory} {a : Nat} (h : m.writeBytes a vs = some m') :
    (∀ x, m'.read x = if a ≤ x ∧ x < a + vs.length then vs[x - a]? else m.read x) ∧
      m'.map Prod.fst = m.map Prod.fst := by
  induction vs generalizing m a with
  | nil =>
    simp only [Memory.writeBytes, Option.some.injEq] at h
    subst h
    refine ⟨fun x => ?_, rfl⟩
    simp only [List.length_nil, Nat.add_zero]
    rw [if_neg (by omega)]
  | cons v vs ih =>
    simp only [Memory.writeBytes] at h
    split at h
    · rename_i m1 h1
      obtain ⟨hr1, hk1⟩ := Memory.put_spec h1
      obtain ⟨hr, hk⟩ := ih h
      refine ⟨fun x => ?_, hk.trans hk1⟩
      rw [hr, hr1]
      simp only [List.length_cons]
      by_cases hx : x = a
      · subst hx
        rw [if_neg (by omega), if_pos rfl, if_pos (by omega)]
        simp
      · by_cases hin : a + 1 ≤ x ∧ x < a + 1 + vs.length
        · rw [if_pos hin, if_pos (by omega)]
          have : x - a = (x - (a + 1)) + 1 := by omega
          rw [this, List.getElem?_cons_succ]
        · rw [if_neg hin, if_neg hx, if_neg (by omega)]
    · simp at h

/-- A write whose addresses all exist succeeds. -/
theorem Memory.writeBytes_isSome (vs : List Byte) (m : Memory) (a : Nat)
    (h : ∀ j < vs.length, a + j ∈ m.map Prod.fst) : ∃ m', m.writeBytes a vs = some m' := by
  induction vs generalizing m a with
  | nil => exact ⟨m, rfl⟩
  | cons v vs ih =>
    have h0 : a ∈ m.map Prod.fst := h 0 (by simp)
    obtain ⟨m1, h1⟩ := Option.isSome_iff_exists.mp ((Memory.put_isSome m a v).mpr h0)
    obtain ⟨_, hk⟩ := Memory.put_spec h1
    obtain ⟨m2, h2⟩ := ih m1 (a + 1) (fun j hj => by
      rw [hk]
      have := h (j + 1) (by simpa using hj)
      rwa [show a + 1 + j = a + (j + 1) by omega])
    exact ⟨m2, by simp [Memory.writeBytes, h1, h2]⟩

/-- The canonical form is that of the addresses. -/
theorem Memory.wf_iff (m : Memory) : m.wf = true ↔ (m.map Prod.fst).Pairwise (· < ·) := by
  induction m with
  | nil => simp [Memory.wf]
  | cons c m ih =>
    obtain ⟨a, x⟩ := c
    cases m with
    | nil => simp [Memory.wf]
    | cons d m =>
      obtain ⟨b, y⟩ := d
      simp only [Memory.wf, Bool.and_eq_true, decide_eq_true_eq, ih, List.map_cons, List.pairwise_cons,
        List.mem_cons, forall_eq_or_imp]
      constructor
      · rintro ⟨hab, hb, hm⟩
        exact ⟨⟨hab, fun z hz => lt_trans hab (hb z hz)⟩, hb, hm⟩
      · rintro ⟨⟨hab, _⟩, hb, hm⟩
        exact ⟨hab, hb, hm⟩

/-- A byte write keeps the canonical form. -/
theorem Memory.put_wf {m m' : Memory} {a : Nat} {v : Byte} (h : m.put a v = some m') (hm : m.wf = true) :
    m'.wf = true := by
  rw [Memory.wf_iff] at hm ⊢
  rwa [(Memory.put_spec h).2]

/-- The memory of the reset state is in canonical form. -/
theorem Memory.reset_wf : Memory.wf State.reset.buf = true := rfl

/-- Every write keeps the canonical form. -/
theorem Memory.writeBytes_wf (vs : List Byte) {m m' : Memory} {a : Nat} (h : m.writeBytes a vs = some m')
    (hm : m.wf = true) : m'.wf = true := by
  rw [Memory.wf_iff] at hm ⊢
  rwa [(Memory.writeBytes_spec vs h).2]

/-- The addresses of a freshly allocated buffer. -/
theorem Memory.fresh_addresses (c d a n : Nat) : (Memory.fresh c d a n).map Prod.fst = List.range' a n := by
  induction n generalizing a with
  | zero => rfl
  | succ n ih => simp [Memory.fresh, ih, List.range'_succ]

/-- A freshly allocated buffer is in canonical form. -/
theorem Memory.fresh_wf (c d a n : Nat) : (Memory.fresh c d a n).wf = true := by
  rw [Memory.wf_iff, Memory.fresh_addresses]
  exact List.pairwise_lt_range'

/-- What a freshly allocated buffer holds: `BUF_RESET`. -/
theorem Memory.fresh_read (c d a n x : Nat) :
    (Memory.fresh c d a n).read x = if a ≤ x ∧ x < a + n then some (Config.bufReset c d x) else none := by
  induction n generalizing a with
  | zero => simp only [Memory.fresh, Memory.read]; rw [if_neg (by omega)]
  | succ n ih =>
    simp only [Memory.fresh, Memory.read, ih]
    by_cases h : a = x
    · subst h; rw [if_pos rfl, if_pos (by omega)]
    · rw [if_neg h]
      by_cases h1 : a + 1 ≤ x ∧ x < a + 1 + n
      · rw [if_pos h1, if_pos (by omega)]
      · rw [if_neg h1, if_neg (by omega)]

/-- What a read of several bytes answers. -/
theorem Memory.readBytes_spec (n : Nat) {m : Memory} {a : Nat} {bs : List Byte} (h : m.readBytes a n = some bs) :
    bs.length = n ∧ ∀ j < n, bs[j]? = m.read (a + j) := by
  induction n generalizing a bs with
  | zero => simp only [Memory.readBytes, Option.some.injEq] at h; subst h; simp
  | succ n ih =>
    simp only [Memory.readBytes] at h
    split at h
    · rename_i b bs1 hb h1
      simp only [Option.some.injEq] at h
      subst h
      obtain ⟨hl, hr⟩ := ih h1
      refine ⟨by simp [hl], fun j hj => ?_⟩
      cases j with
      | zero => simp [hb]
      | succ j =>
        rw [List.getElem?_cons_succ, hr j (by omega)]
        congr 1; omega
    · simp at h

/-- A read whose addresses all exist succeeds. -/
theorem Memory.readBytes_isSome (n : Nat) (m : Memory) (a : Nat) (h : ∀ j < n, a + j ∈ m.map Prod.fst) :
    ∃ bs, m.readBytes a n = some bs := by
  induction n generalizing a with
  | zero => exact ⟨[], rfl⟩
  | succ n ih =>
    obtain ⟨b, hb⟩ := Option.isSome_iff_exists.mp ((Memory.read_isSome m a).mpr (h 0 (by omega)))
    obtain ⟨bs, hbs⟩ := ih (a + 1) (fun j hj => by
      have := h (j + 1) (by omega)
      rwa [show a + 1 + j = a + (j + 1) by omega])
    exact ⟨b :: bs, by simp [Memory.readBytes, hb, hbs]⟩

/-- A read never looks at a cell whose address lies below. -/
theorem Memory.readBytes_cons (n : Nat) (m : Memory) (k : Nat) (b : Byte) (a : Nat) (h : k < a) :
    Memory.readBytes ((k, b) :: m) a n = Memory.readBytes m a n := by
  induction n generalizing a with
  | zero => rfl
  | succ n ih =>
    have hk : Memory.read ((k, b) :: m) a = m.read a := by simp [Memory.read, show k ≠ a by omega]
    simp only [Memory.readBytes, hk, ih (a + 1) (by omega)]

/-- The read of a buffer without gaps answers its bytes in address order. -/
theorem Memory.readBytes_all (m : Memory) (a n : Nat) (h : m.map Prod.fst = List.range' a n) :
    m.readBytes a n = some (m.map Prod.snd) := by
  induction n generalizing m a with
  | zero =>
    have : m = [] := by simpa using h
    subst this; rfl
  | succ n ih =>
    cases m with
    | nil => simp [List.range'_succ] at h
    | cons c m =>
      obtain ⟨k, b⟩ := c
      simp only [List.map_cons, List.range'_succ, List.cons.injEq] at h
      obtain ⟨rfl, h⟩ := h
      simp [Memory.readBytes, Memory.read, Memory.readBytes_cons n m k b (k + 1) (by omega), ih m (k + 1) h]

/-- Equal addresses and equal readings make equal memories, if the addresses do not repeat. -/
theorem Memory.eq_of_reads {m m' : Memory} (hk : m.map Prod.fst = m'.map Prod.fst) (hn : (m.map Prod.fst).Nodup)
    (h : ∀ x, m.read x = m'.read x) : m = m' := by
  induction m generalizing m' with
  | nil => simpa using hk.symm
  | cons c m ih =>
    obtain ⟨k, b⟩ := c
    cases m' with
    | nil => simp at hk
    | cons c' m' =>
      obtain ⟨k', b'⟩ := c'
      simp only [List.map_cons, List.cons.injEq] at hk
      obtain ⟨rfl, hk⟩ := hk
      simp only [List.map_cons, List.nodup_cons] at hn
      have hb : b = b' := by simpa [Memory.read] using h k
      subst hb
      congr 1
      refine ih hk hn.2 fun x => ?_
      by_cases hx : k = x
      · subst hx
        have h1 : ∀ n : Memory, k ∉ n.map Prod.fst → n.read k = none := fun n hn' => by
          have := (Memory.read_isSome n k).not.mpr hn'
          simpa using this
        rw [h1 m hn.1, h1 m' (hk ▸ hn.1)]
      · simpa [Memory.read, hx] using h x

/-- In canonical form equal readings make equal data. -/
theorem Memory.eq_of_wf {m m' : Memory} (hm : m.wf = true) (hm' : m'.wf = true) (h : ∀ x, m.read x = m'.read x) :
    m = m' := by
  rw [Memory.wf_iff] at hm hm'
  have hmem : ∀ x, x ∈ m.map Prod.fst ↔ x ∈ m'.map Prod.fst := fun x => by
    rw [← Memory.read_isSome, ← Memory.read_isSome, h x]
  refine Memory.eq_of_reads ?_ (hm.imp (fun h => Nat.ne_of_lt h)) h
  exact List.Perm.eq_of_pairwise (le := (· < ·)) (fun a b _ _ h1 h2 => absurd h1 (Nat.lt_asymm h2)) hm hm'
    ((List.perm_ext_iff_of_nodup (hm.imp (fun h => Nat.ne_of_lt h)) (hm'.imp (fun h => Nat.ne_of_lt h))).mpr hmem)

/-- Writing the value a region already holds changes nothing (20_memory.md R38). -/
theorem Memory.writeBytes_idem {m m' : Memory} {a : Nat} {vs : List Byte} (h : m.writeBytes a vs = some m')
    (hn : (m.map Prod.fst).Nodup) (hin : ∀ j < vs.length, a + j ∈ m.map Prod.fst) :
    m'.writeBytes a vs = some m' := by
  obtain ⟨hr, hk⟩ := Memory.writeBytes_spec vs h
  obtain ⟨m2, h2⟩ := Memory.writeBytes_isSome vs m' a (by rwa [hk])
  obtain ⟨hr2, hk2⟩ := Memory.writeBytes_spec vs h2
  rw [h2]
  congr 1
  refine Memory.eq_of_reads hk2 (by rw [hk2, hk]; exact hn) fun x => ?_
  rw [hr2, hr]
  split <;> rfl

end Sys2Proof.Machine
end

