-- ==== Sys2Proof/Laws/Requests.lean ====
section
/-! SUPPORT. The request list: what is read after a write, and its canonical form. -/

namespace Sys2Proof.Machine

@[simp] theorem Requests.get_set_self (rs : List (Nat × Request)) (q : Nat) (r : Request) :
    Requests.get (Requests.set rs q r) q = r := by
  induction rs with
  | nil => simp [Requests.set, Requests.get]
  | cons e rs ih =>
    obtain ⟨k, x⟩ := e
    unfold Requests.set
    split
    · simp [Requests.get]
    · split
      · simp [Requests.get]
      · simp [Requests.get, *]

@[simp] theorem Requests.get_set_ne (rs : List (Nat × Request)) {q q' : Nat} (r : Request) (h : q' ≠ q) :
    Requests.get (Requests.set rs q r) q' = Requests.get rs q' := by
  induction rs with
  | nil => simp [Requests.set, Requests.get, h.symm]
  | cons e rs ih =>
    obtain ⟨k, x⟩ := e
    unfold Requests.set
    split
    · simp [Requests.get, h.symm]
    · split
      · subst_vars; simp [Requests.get, h.symm]
      · simp only [Requests.get, ih]

@[simp] theorem State.request_setRequest_self (s : State) (q : Nat) (r : Request) :
    (s.setRequest q r).request q = r := by
  simp [State.request]

@[simp] theorem State.request_setRequest_ne (s : State) {q q' : Nat} (r : Request) (h : q' ≠ q) :
    (s.setRequest q r).request q' = s.request q' := by
  simp [State.request, h]

/-- The last write under a name counts. -/
@[simp] theorem Requests.set_set (rs : List (Nat × Request)) (q : Nat) (r r' : Request) :
    Requests.set (Requests.set rs q r) q r' = Requests.set rs q r' := by
  induction rs with
  | nil => simp [Requests.set]
  | cons e rs ih =>
    obtain ⟨k, x⟩ := e
    by_cases h1 : q < k
    · simp [Requests.set, h1]
    · by_cases h2 : k = q
      · simp [Requests.set, h2]
      · simp [Requests.set, h1, h2, ih]

@[simp] theorem State.setRequest_setRequest (s : State) (q : Nat) (r r' : Request) :
    (s.setRequest q r).setRequest q r' = s.setRequest q r' := by
  simp [State.setRequest]

/-- Read after write, as one equation. -/
theorem State.request_setRequest (s : State) (q q' : Nat) (r : Request) :
    (s.setRequest q r).request q' = if q' = q then r else s.request q' := by
  split
  · subst_vars; simp
  · simp [*]

theorem State.phase_setRequest (s : State) (q q' : Nat) (r : Request) :
    (s.setRequest q r).phase q' = if q' = q then r.phase else s.phase q' := by
  simp only [State.phase, State.request_setRequest]
  split <;> rfl

/-- A write keeps the canonical form of the request list, if what is written has been made. -/
theorem Requests.wf_set (rs : List (Nat × Request)) (q : Nat) (r : Request) (hr : r.phase ≠ .idle)
    (h : Requests.wf rs = true) : Requests.wf (Requests.set rs q r) = true := by
  induction rs with
  | nil => simp [Requests.set, Requests.wf, hr]
  | cons e rs ih =>
    obtain ⟨k, x⟩ := e
    unfold Requests.set
    split
    · simp_all [Requests.wf]
    · split
      · cases rs with
        | nil => simp [Requests.wf, hr]
        | cons e' rs => subst_vars; simp_all [Requests.wf]
      · have hk : k < q := by omega
        cases rs with
        | nil => simp_all [Requests.set, Requests.wf]
        | cons e' rs =>
          obtain ⟨k', x'⟩ := e'
          simp only [Requests.wf, Bool.and_eq_true, bne_iff_ne, decide_eq_true_eq] at h
          have ih' := ih h.2
          simp only [Requests.set] at ih' ⊢
          split
          · simp_all [Requests.wf]
          · split <;> simp_all [Requests.wf]

/-- A name that is not listed reads as a request that has not been made. -/
theorem Requests.get_of_not_listed (rs : List (Nat × Request)) (q : Nat) (h : ∀ e ∈ rs, e.1 ≠ q) :
    Requests.get rs q = .idle := by
  induction rs with
  | nil => rfl
  | cons e rs ih =>
    obtain ⟨k, x⟩ := e
    simp only [List.mem_cons, forall_eq_or_imp] at h
    simp only [Requests.get, h.1, if_false]
    exact ih h.2

/-- What is read under a name other than the reading of an unlisted one is listed under it. -/
theorem Requests.mem_of_get (rs : List (Nat × Request)) (q : Nat) (h : Requests.get rs q ≠ .idle) :
    (q, Requests.get rs q) ∈ rs := by
  induction rs with
  | nil => exact absurd rfl h
  | cons e rs ih =>
    obtain ⟨k, x⟩ := e
    by_cases hk : k = q
    · simp [Requests.get, hk]
    · simp only [Requests.get, hk, if_false] at h ⊢
      exact List.mem_cons_of_mem _ (ih h)

/-- With no request in progress every request has not been made or has ended. -/
theorem State.idle_or_done_of_none_in_progress (s : State) (h : s.anyInProgress = false) (q : Nat) :
    s.phase q = .idle ∨ s.phase q = .done := by
  by_cases hq : s.request q = .idle
  · exact Or.inl (by rw [State.phase, hq]; rfl)
  · have hm := Requests.mem_of_get s.reqs q hq
    simp only [State.anyInProgress, List.any_eq_false] at h
    have := h _ hm
    change ¬ (s.phase q).inProgress = true at this
    cases hp : s.phase q <;> simp_all [Phase.inProgress]

end Sys2Proof.Machine
end

