-- ==== Sys2Proof/Laws/Ops.lean ====
section
/-! SUPPORT. One lemma per shared operation: everything it can do. -/

namespace Sys2Proof.Machine

/-! ### Sequencing -/

@[simp] theorem andThen_next (s : State) (f : State → Step) : andThen (.next s) f = f s := rfl
@[simp] theorem andThen_fault (r : Fault) (f : State → Step) : andThen (.fault r) f = .fault r := rfl
@[simp] theorem andThen_refused (r : Refusal) (f : State → Step) : andThen (.refused r) f = .refused r := rfl

/-- What a sequence can answer: if it answers a next state, both parts did. -/
theorem andThen_eq_next {o : Step} {f : State → Step} {t : State} (h : andThen o f = .next t) :
    ∃ s, o = .next s ∧ f s = .next t := by
  cases o with
  | next s => exact ⟨s, rfl, h⟩
  | fault r => simp at h
  | refused r => simp at h

/-! ### The small steps -/

variable {s t : State} {q led : Nat} {ch0 ch1 ch2 : Byte}

/-- When a request can be made, and what that does (43_update.md R118). -/
theorem invoke_eq_some (h : invoke s q led ch0 ch1 ch2 = some t) :
    s.up = true ∧ s.phase q = .idle ∧ ∃ ep, s.endpoints[led]? = some ep ∧
      t = s.setRequest q ⟨.check, some ⟨ep.chipId, ch0, ch1, ch2⟩, none, false, none, none⟩ := by
  unfold invoke at h
  split at h
  · rename_i hc
    split at h
    · rename_i ep hep
      exact ⟨hc.1, hc.2, ep, hep, by simpa [Request.idle] using h.symm⟩
    · cases h
  · cases h

/-- A request of an endpoint of a block that is up can be made under a name not yet used. -/
theorem invoke_of_endpoint {ep : Endpoint} (hu : s.up = true) (hp : s.phase q = .idle)
    (he : s.endpoints[led]? = some ep) :
    invoke s q led ch0 ch1 ch2 =
      some (s.setRequest q ⟨.check, some ⟨ep.chipId, ch0, ch1, ch2⟩, none, false, none, none⟩) := by
  simp [invoke, hu, hp, he, Request.idle]

/-- What the frame resource check can do (43_update.md R114). -/
theorem checkFrame_cases (s : State) (q : Nat) :
    (s.phase q ≠ .check ∧ checkFrame s q = s) ∨
    (s.phase q = .check ∧ s.alloc = .ok ∧ checkFrame s q = s.setRequest q { s.request q with phase := .wait }) ∨
    (s.phase q = .check ∧ s.alloc = .fail ∧ checkFrame s q = s.endRequest q (some .allocationFailure)) := by
  unfold checkFrame
  split
  · rename_i h
    cases ha : s.alloc with
    | ok => exact .inr (.inl ⟨h, rfl, rfl⟩)
    | fail => exact .inr (.inr ⟨h, rfl, rfl⟩)
  · rename_i h
    exact .inl ⟨h, rfl⟩

theorem checkFrame_of_not_check (h : s.phase q ≠ .check) : checkFrame s q = s := by
  simp [checkFrame, h]

theorem checkFrame_of_ok (h : s.phase q = .check) (ha : s.alloc = .ok) :
    checkFrame s q = s.setRequest q { s.request q with phase := .wait } := by
  simp [checkFrame, h, ha, effectiveAlloc]

theorem checkFrame_of_fail (h : s.phase q = .check) (ha : s.alloc = .fail) :
    checkFrame s q = s.endRequest q (some .allocationFailure) := by
  simp [checkFrame, h, ha, effectiveAlloc, Config.allocCanFail]

theorem acquire_of_enabled (h : s.canAcquire q) :
    acquire s q = ((s.setRequest q { s.request q with phase := .held }).setLock (.held q)).appendOrder
      ((s.request q).req.map (CriticalSection.mk q)).toList := by
  simp [acquire, h]

theorem acquire_of_not_enabled (h : ¬ s.canAcquire q) : acquire s q = s := by
  simp only [acquire, if_neg h]

theorem latchPixel_of_holder {l : ReqLatch} (h : s.holdsIn q .held) (hr : (s.request q).req = some l) :
    latchPixel s q = s.setRequest q { s.request q with px := some l.pixel } := by
  simp [latchPixel, h, hr]

theorem latchPixel_of_not_holder (h : ¬ s.holdsIn q .held) : latchPixel s q = s := by
  simp only [latchPixel, if_neg h]

/-- The slot write of an enabled `SLOT_WR` whose addresses exist (41_buffer.md R91). -/
theorem writeSlot_of_enabled {l : ReqLatch} {p : EncodedPixel} {m : Memory} (h : s.holdsIn q .held)
    (hr : (s.request q).req = some l) (hp : (s.request q).px = some p)
    (hm : Memory.writeBytes s.buf (slotAddress l.led) p.bytes = some m) :
    writeSlot s q = .next ((s.setRequest q { s.request q with slotDone := true }).setBuf m) := by
  simp [writeSlot, h, hr, hp, hm]

theorem writeSlot_of_not_holder (h : ¬ s.holdsIn q .held) : writeSlot s q = .next s := by
  simp only [writeSlot, if_neg h]

/-- What the slot write can do when it answers a next state. -/
theorem writeSlot_eq_next (h : writeSlot s q = .next t) :
    t = s ∨ ∃ l p m, s.holdsIn q .held ∧ (s.request q).req = some l ∧ (s.request q).px = some p ∧
      Memory.writeBytes s.buf (slotAddress l.led) p.bytes = some m ∧
      t = (s.setRequest q { s.request q with slotDone := true }).setBuf m := by
  unfold writeSlot at h
  split at h
  · rename_i hq
    split at h
    · rename_i l p hl hp
      split at h
      · rename_i m hm
        exact .inr ⟨l, p, m, hq, hl, hp, hm, by simpa using h.symm⟩
      · cases h
    · exact .inl (by simpa using h.symm)
  · exact .inl (by simpa using h.symm)

/-- The frame of an enabled `COMPOSE` (42_composer.md R100). -/
theorem composeFrame_of_enabled {bs : List Byte} (h : s.canCompose q) (hb : s.wholeBuffer = some bs) :
    composeFrame s q = .next (s.setRequest q { s.request q with frame := some (padFrame bs) }) := by
  simp [composeFrame, h, hb]

theorem composeFrame_of_not_enabled (h : ¬ s.canCompose q) : composeFrame s q = .next s := by
  simp only [composeFrame, if_neg h]

/-- What the composition can do when it answers a next state. -/
theorem composeFrame_eq_next (h : composeFrame s q = .next t) :
    t = s ∨ ∃ bs, s.canCompose q ∧ s.wholeBuffer = some bs ∧
      t = s.setRequest q { s.request q with frame := some (padFrame bs) } := by
  unfold composeFrame at h
  split at h
  · rename_i hq
    split at h
    · rename_i bs hb
      exact .inr ⟨bs, hq, hb, by simpa using h.symm⟩
    · cases h
  · exact .inl (by simpa using h.symm)

theorem beginWrite_of_enabled (h : s.canBeginWrite q) :
    beginWrite s q = s.setRequest q { s.request q with phase := .send } := by
  simp only [beginWrite, if_pos h]

theorem beginWrite_of_not_enabled (h : ¬ s.canBeginWrite q) : beginWrite s q = s := by
  simp only [beginWrite, if_neg h]

/-- The transport's answer (43_update.md R116). -/
theorem takeAnswer_of_answer {r : TransportAnswer} {f : List Byte} (h : s.holdsIn q .send) (ht : s.tx = some r)
    (hf : (s.request q).frame = some f) :
    takeAnswer s q =
      (s.setRequest q { s.request q with phase := .rel, status := some r.toStatus }).appendWire ⟨q, f, r⟩ := by
  simp [takeAnswer, h, ht, hf]

theorem takeAnswer_of_silence (h : s.tx = none) : takeAnswer s q = s := by
  simp [takeAnswer, h]

theorem takeAnswer_of_not_sending (h : ¬ s.holdsIn q .send) : takeAnswer s q = s := by
  simp only [takeAnswer, if_neg h]

/-- What the answer step can do. -/
theorem takeAnswer_cases (s : State) (q : Nat) :
    takeAnswer s q = s ∨ ∃ r f, s.holdsIn q .send ∧ s.tx = some r ∧ (s.request q).frame = some f ∧
      takeAnswer s q =
        (s.setRequest q { s.request q with phase := .rel, status := some r.toStatus }).appendWire ⟨q, f, r⟩ := by
  by_cases h : s.holdsIn q .send
  · cases ht : s.tx with
    | none => exact .inl (takeAnswer_of_silence ht)
    | some r =>
      cases hf : (s.request q).frame with
      | none => exact .inl (by simp [takeAnswer, ht, hf])
      | some f => exact .inr ⟨r, f, h, rfl, rfl, takeAnswer_of_answer h ht hf⟩
  · exact .inl (takeAnswer_of_not_sending h)

theorem release_of_holder (h : s.holdsIn q .rel) :
    release s q = (s.endRequest q (s.request q).status).setLock .free := by
  simp [release, h]

theorem release_of_not_holder (h : ¬ s.holdsIn q .rel) : release s q = s := by
  simp only [release, if_neg h]

end Sys2Proof.Machine
end

