-- ==== Sys2Proof/Laws/Invariant.lean ====
section
/-! SUPPORT. What the invariant says, read off once, and that each shared operation keeps it. -/

namespace Sys2Proof.Machine

variable {s t : State} {q : Nat}

/-! ### Reading the invariant -/

theorem Request.fits_of_phase {n : Nat} {now : List Byte} {r : Request} (h : r.fits n now) :
    (r.phase = .idle → r = Request.idle) ∧
    (r.phase = .check → ∃ l : ReqLatch, l.led < n ∧ r = ⟨.check, some l, none, false, none, none⟩) ∧
    (r.phase = .wait → ∃ l : ReqLatch, l.led < n ∧ r = ⟨.wait, some l, none, false, none, none⟩) ∧
    (r.phase = .send → ∃ l : ReqLatch, l.led < n ∧ r = ⟨.send, some l, some l.pixel, true, some (padFrame now), none⟩) ∧
    (r.phase = .rel → ∃ (l : ReqLatch) (a : TransportAnswer), l.led < n ∧
      r = ⟨.rel, some l, some l.pixel, true, some (padFrame now), some a.toStatus⟩) ∧
    (r.phase = .done → ∃ st, r = ⟨.done, none, none, false, none, some st⟩) := by
  refine ⟨?_, ?_, ?_, ?_, ?_, ?_⟩ <;> intro hp <;> simpa only [Request.fits, hp] using h

/-- A request in HELD has its operands, and what it has computed so far is right. -/
theorem Request.fits_held {n : Nat} {now : List Byte} {r : Request} (h : r.fits n now) (hp : r.phase = .held) :
    ∃ l : ReqLatch, l.led < n ∧ r.req = some l ∧ (r.px = none ∨ r.px = some l.pixel) ∧
      (r.slotDone = true → r.px = some l.pixel) ∧
      (∀ f, r.frame = some f → r.slotDone = true ∧ f = padFrame now) ∧ r.status = none := by
  simpa only [Request.fits, hp] using h

/-- A request that does not hold the lock fits whatever the buffer holds. -/
theorem Request.fits_any_contents {n : Nat} {now later : List Byte} {r : Request} (h : r.fits n now)
    (hp : r.phase.holdsLock = false) : r.fits n later := by
  unfold Request.fits at h ⊢
  cases hr : r.phase <;> simp_all [Phase.holdsLock]

/-- A request that has been made belongs to a block that is up. -/
theorem State.Inv.up_of_made (hI : s.Inv) (h : s.phase q ≠ .idle) : s.up = true := by
  by_contra hu
  have := hI.down (by simpa using hu)
  exact h (by simp [State.phase, State.request, this.2.2.1, Requests.get, Request.idle])

/-- At most one request is in HELD, SEND or REL. -/
theorem State.Inv.one_holder (hI : s.Inv) {p : Nat} (hq : (s.phase q).holdsLock = true)
    (hp : (s.phase p).holdsLock = true) : p = q := by
  have h1 := (hI.holder q).mpr hq
  have h2 := (hI.holder p).mpr hp
  rw [h1] at h2
  exact (Lock.held.inj h2).symm

/-- The buffer length is `9N`, up or down. -/
theorem State.Inv.bufLength_eq (hI : s.Inv) : s.bufLength = Config.slotBytes * s.chips := by
  by_cases hu : s.up = true
  · obtain ⟨_, ht⟩ := hI.topology hu
    simp only [State.bufLength]
    rw [ht]
    exact Nat.mul_comm _ _
  · have := (hI.down (by simpa using hu)).1
    simp [State.bufLength, State.chips, this]

/-- `BUF_RD` succeeds and answers the whole buffer. -/
theorem State.Inv.wholeBuffer_eq (hI : s.Inv) : s.wholeBuffer = some s.contents :=
  Memory.readBytes_all _ _ _ (by rw [hI.addresses, List.range_eq_range'])

/-- The slot of an existing position can be written. -/
theorem State.Inv.slot_writable (hI : s.Inv) {i : Nat} (hi : i < s.chips) (p : EncodedPixel) :
    ∃ m, Memory.writeBytes s.buf (slotAddress i) p.bytes = some m := by
  apply Memory.writeBytes_isSome
  intro j hj
  have hj9 : j < 9 := by simpa [EncodedPixel.bytes, EncodedChannel.bytes] using hj
  rw [hI.addresses, List.mem_range, hI.bufLength_eq]
  simp only [slotAddress, Config.slotBytes]
  omega

/-- The request of a transport write has been answered, so it is not one that is still before the answer. -/
theorem State.Inv.not_in_wire (hI : s.Inv) (h : (s.request q).status = none) : ∀ w ∈ s.wire, w.q ≠ q := by
  intro w hw he
  have := hI.statuses w hw
  rw [he, h] at this
  cases this

/-! ### Replay -/

theorem replay_append (m : Memory) (cs ds : List CriticalSection) :
    replay m (cs ++ ds) = replay (replay m cs) ds := by
  simp [replay, List.foldl_append]

theorem framesOf_append (m : Memory) (cs ds : List CriticalSection) :
    framesOf m (cs ++ ds) = framesOf m cs ++ framesOf (replay m cs) ds := by
  induction cs generalizing m with
  | nil => rfl
  | cons c cs ih => simp [framesOf, ih, replay]

/-- A slot write changes no address. -/
theorem writeSection_addresses (m : Memory) (c : CriticalSection) :
    (writeSection m c).map Prod.fst = m.map Prod.fst := by
  unfold writeSection
  cases h : Memory.writeBytes m (slotAddress c.req.led) c.req.pixel.bytes with
  | none => rfl
  | some m' => exact (Memory.writeBytes_spec _ h).2

theorem replay_addresses (m : Memory) (cs : List CriticalSection) :
    (replay m cs).map Prod.fst = m.map Prod.fst := by
  induction cs generalizing m with
  | nil => rfl
  | cons c cs ih => exact (ih _).trans (writeSection_addresses m c)

/-! ### Changing one request -/

/-- Changing the fields of one request keeps the invariant, if they fit its phase and the change concerns neither the
lock, nor the lock order, nor the buffer, nor the wire. -/
theorem State.Inv.setRequest (hI : s.Inv) {r : Request} (hu : s.up = true) (hmade : r.phase ≠ .idle)
    (hfits : r.fits s.chips s.contents) (hlock : r.phase.holdsLock = (s.phase q).holdsLock)
    (hdone : s.phase q = .done → r.phase = .done)
    (hheld : s.lock = .held q → r.slotDone = (s.request q).slotDone ∧ (r.phase = .rel ↔ s.phase q = .rel) ∧
      r.req = (s.request q).req)
    (hst : r.status = (s.request q).status ∨ ((s.request q).status = none ∧ r.status = some .allocationFailure)) :
    (s.setRequest q r).Inv where
  down h := by simp [hu] at h
  topology h := hI.topology hu
  endpoints := hI.endpoints
  addresses := hI.addresses
  requests := Requests.wf_set _ _ _ hmade hI.requests
  fits p := by
    simp only [State.request_setRequest, State.setRequest_chips, State.setRequest_contents]
    split
    · exact hfits
    · exact hI.fits p
  holder p := by
    simp only [State.setRequest_lock, State.phase_setRequest]
    split
    · subst_vars; rw [hlock]; exact hI.holder _
    · exact hI.holder p
  once := hI.once
  sections c hc := by
    refine ⟨(hI.sections c hc).1, ?_⟩
    simp only [State.phase_setRequest]
    split
    · rename_i hcq
      have := (hI.sections c hc).2
      rw [hcq] at this
      rcases this with h | h
      · exact .inl (by rw [hlock, h])
      · exact .inr (hdone h)
    · exact (hI.sections c hc).2
  latest p hp := by
    obtain ⟨l, hl, ho⟩ := hI.latest p hp
    refine ⟨l, ?_, ho⟩
    rw [State.request_setRequest]
    split
    · subst_vars; rw [(hheld hp).2.2]; exact hl
    · exact hl
  buffer := by
    rw [State.setRequest_buf, hI.buffer]
    congr 1
    simp only [State.committed, State.setRequest_lock, State.setRequest_order]
    cases hk : s.lock with
    | free => rfl
    | held p =>
      simp only [State.request_setRequest]
      by_cases hpq : p = q
      · subst hpq; simp only [if_true, (hheld hk).1]
      · simp only [if_neg hpq]
  frames := by
    rw [State.setRequest_wire, hI.frames]
    congr 1
    simp only [State.answered, State.setRequest_lock, State.setRequest_order]
    cases hk : s.lock with
    | free => rfl
    | held p =>
      simp only [State.phase_setRequest]
      by_cases hpq : p = q
      · subst hpq; simp only [if_true, (hheld hk).2.1]
      · simp only [if_neg hpq]
  statuses w hw := by
    rw [State.request_setRequest]
    have h0 := hI.statuses w hw
    split
    · rename_i hwq
      rw [hwq] at h0
      rcases hst with h | h
      · rw [h, h0]
      · rw [h.1] at h0; cases h0
    · exact h0
  sources p st h := by
    rw [State.request_setRequest] at h
    split at h
    · subst_vars
      rcases hst with h' | h'
      · exact hI.sources _ st (h' ▸ h)
      · rw [h'.2] at h; exact .inl (Option.some.inj h).symm
    · exact hI.sources p st h

/-! ### The small steps keep the invariant -/

theorem State.Inv.invoke {led : Nat} {ch0 ch1 ch2 : Byte} (hI : s.Inv)
    (h : Machine.invoke s q led ch0 ch1 ch2 = some t) : t.Inv := by
  obtain ⟨hu, hp, ep, hep, rfl⟩ := invoke_eq_some h
  have hidle : s.request q = Request.idle := (Request.fits_of_phase (hI.fits q)).1 hp
  have hled : ep.chipId < s.chips := by
    have hm := List.mem_of_getElem? hep
    rw [hI.endpoints] at hm
    obtain ⟨i, hi, rfl⟩ := List.mem_map.mp hm
    exact List.mem_range.mp hi
  refine hI.setRequest hu (by simp) ⟨_, hled, rfl⟩ (by simp [hp, Phase.holdsLock]) (by simp [hp]) ?_ ?_
  · intro hk
    have := (hI.holder q).mp hk
    simp [hp, Phase.holdsLock] at this
  · exact .inl (by rw [hidle]; rfl)

theorem State.Inv.checkFrame (hI : s.Inv) (q : Nat) : (Machine.checkFrame s q).Inv := by
  rcases checkFrame_cases s q with ⟨_, h⟩ | ⟨hp, _, h⟩ | ⟨hp, _, h⟩ <;> rw [h]
  · exact hI
  all_goals
    have hu := hI.up_of_made (q := q) (by simp [hp])
    obtain ⟨l, hl, hr⟩ := (Request.fits_of_phase (hI.fits q)).2.1 hp
    have hnk : s.lock ≠ .held q := fun hk => by
      have := (hI.holder q).mp hk
      simp [hp, Phase.holdsLock] at this
  · refine hI.setRequest hu (by simp) ⟨l, hl, by rw [hr]⟩ (by simp [hp, Phase.holdsLock]) (by simp [hp])
      (fun hk => absurd hk hnk) (.inl rfl)
  · refine hI.setRequest hu (by simp) ⟨_, rfl⟩ (by simp [hp, Phase.holdsLock]) (by simp) (fun hk => absurd hk hnk)
      (.inr ⟨by rw [hr], rfl⟩)

theorem State.Inv.latchPixel (hI : s.Inv) (q : Nat) : (Machine.latchPixel s q).Inv := by
  by_cases h : s.holdsIn q .held
  · obtain ⟨l, hl, hr, hpx, hsd, hf, hst⟩ := Request.fits_held (hI.fits q) h.2
    rw [latchPixel_of_holder h hr]
    refine hI.setRequest (hI.up_of_made (q := q) (by simp [h.2])) ?_ ?_ rfl (by simp [h.2]) (fun _ => ⟨rfl, Iff.rfl, rfl⟩)
      (.inl rfl)
    · change s.phase q ≠ .idle; simp [h.2]
    · have hp : ({ s.request q with px := some l.pixel } : Request).phase = .held := h.2
      unfold Request.fits
      rw [hp]
      exact ⟨l, hl, hr, .inr rfl, fun _ => rfl, hf, hst⟩
  · rw [latchPixel_of_not_holder h]; exact hI

theorem State.Inv.composeFrame (hI : s.Inv) (h : Machine.composeFrame s q = .next t) : t.Inv := by
  rcases composeFrame_eq_next h with rfl | ⟨bs, hc, hb, rfl⟩
  · exact hI
  · rw [hI.wholeBuffer_eq] at hb
    obtain rfl := Option.some.inj hb
    obtain ⟨l, hl, hr, hpx, hsd, hf, hst⟩ := Request.fits_held (hI.fits q) hc.1.2
    refine hI.setRequest (hI.up_of_made (q := q) (by simp [hc.1.2])) ?_ ?_ rfl (by simp [hc.1.2])
      (fun _ => ⟨rfl, Iff.rfl, rfl⟩) (.inl rfl)
    · change s.phase q ≠ .idle; simp [hc.1.2]
    · have hp : ({ s.request q with frame := some (padFrame s.contents) } : Request).phase = .held := hc.1.2
      unfold Request.fits
      rw [hp]
      exact ⟨l, hl, hr, hpx, hsd, fun f hf' => ⟨hc.2, (Option.some.inj hf').symm⟩, hst⟩

theorem State.Inv.beginWrite (hI : s.Inv) (q : Nat) : (Machine.beginWrite s q).Inv := by
  by_cases h : s.canBeginWrite q
  · obtain ⟨l, hl, hr, hpx, hsd, hf, hst⟩ := Request.fits_held (hI.fits q) h.1.2
    obtain ⟨f, hfr⟩ := Option.isSome_iff_exists.mp h.2
    obtain ⟨hdone, rfl⟩ := hf f hfr
    rw [beginWrite_of_enabled h]
    refine hI.setRequest (hI.up_of_made (q := q) (by simp [h.1.2])) (by simp) ⟨l, hl, ?_⟩
      (by simp [h.1.2, Phase.holdsLock]) (by simp [h.1.2]) (fun _ => ⟨rfl, by simp [h.1.2], rfl⟩) (.inl rfl)
    simp only [hr, hsd hdone, hdone, hfr, hst]
  · rw [beginWrite_of_not_enabled h]; exact hI

theorem State.Inv.acquire (hI : s.Inv) (q : Nat) : (Machine.acquire s q).Inv := by
  by_cases h : s.canAcquire q
  swap
  · rw [acquire_of_not_enabled h]; exact hI
  obtain ⟨hfree, hp⟩ := h
  obtain ⟨l, hl, hr⟩ := (Request.fits_of_phase (hI.fits q)).2.2.1 hp
  have hu := hI.up_of_made (q := q) (by simp [hp])
  have hnone : ∀ p, (s.phase p).holdsLock = false := fun p => by
    by_contra hc
    have := (hI.holder p).mpr (by simpa using hc)
    simp [hfree] at this
  have hnew : ∀ c ∈ s.order, c.q ≠ q := fun c hc he => by
    rcases (hI.sections c hc).2 with h | h
    · simp [hnone] at h
    · rw [he, hp] at h; cases h
  rw [acquire_of_enabled ⟨hfree, hp⟩, hr]
  generalize ht : ((s.setRequest q _).setLock (.held q)).appendOrder _ = t
  have hreq : ∀ p, t.request p = if p = q then ⟨.held, some l, none, false, none, none⟩ else s.request p := fun p => by
    rw [← ht]; exact State.request_setRequest s q p _
  have hph : ∀ p, t.phase p = if p = q then .held else s.phase p := fun p => by
    rw [← ht]; exact State.phase_setRequest s q p _
  have hlock : t.lock = .held q := by rw [← ht]; rfl
  have horder : t.order = s.order ++ [⟨q, l⟩] := by rw [← ht]; rfl
  have hwire : t.wire = s.wire := by rw [← ht]; rfl
  have hreset : t.resetBuffer = s.resetBuffer := by rw [← ht]; rfl
  have hchips : t.chips = s.chips := by rw [← ht]; rfl
  refine ⟨?_, fun _ => ?_, ?_, ?_, ?_, ?_, ?_, ?_, ?_, ?_, ?_, ?_, ?_, ?_⟩
  · intro h; rw [← ht] at h; simp [hu] at h
  · rw [← ht]; exact hI.topology hu
  · rw [← ht]; exact hI.endpoints
  · rw [← ht]; exact hI.addresses
  · rw [← ht]; exact Requests.wf_set _ _ _ (by simp) hI.requests
  · intro p
    rw [hreq, hchips, show t.contents = s.contents by rw [← ht]; rfl]
    split
    · exact ⟨l, hl, rfl, .inl rfl, by simp, by simp, rfl⟩
    · exact hI.fits p
  · intro p
    rw [hph, hlock, Lock.held.injEq]
    split
    · simp [*, Phase.holdsLock]
    · rename_i hpq
      simp [hnone, Ne.symm hpq]
  · rw [horder, List.map_append]
    refine List.nodup_append.mpr ⟨hI.once, by simp, ?_⟩
    simp only [List.mem_map, List.map_cons, List.map_nil, List.mem_singleton, forall_exists_index, and_imp]
    rintro a c hc rfl b rfl
    exact hnew c hc
  · intro c hc
    rw [horder, List.mem_append, List.mem_singleton] at hc
    rw [hph, hchips]
    rcases hc with hc | rfl
    · refine ⟨(hI.sections c hc).1, ?_⟩
      rw [if_neg (hnew c hc)]
      exact (hI.sections c hc).2
    · exact ⟨hl, by simp [Phase.holdsLock]⟩
  · intro p hp'
    rw [hlock, Lock.held.injEq] at hp'
    subst hp'
    exact ⟨l, by rw [hreq, if_pos rfl], by rw [horder]; simp⟩
  · rw [show t.buf = s.buf by rw [← ht]; rfl, hI.buffer, hreset]
    congr 1
    simp [State.committed, hfree, hlock, hreq, horder]
  · rw [hwire, hI.frames, hreset]
    congr 1
    simp [State.answered, hfree, hlock, hph, horder]
  · intro w hw
    rw [hwire] at hw
    rw [hreq, if_neg (hI.not_in_wire (by rw [hr]) w hw)]
    exact hI.statuses w hw
  · intro p st h
    rw [hreq] at h
    rw [hwire]
    split at h
    · simp at h
    · exact hI.sources p st h

/-- The holder's critical section, apart from the earlier ones. -/
theorem State.Inv.order_of_holder (hI : s.Inv) (h : s.lock = .held q) {l : ReqLatch}
    (hl : (s.request q).req = some l) : s.order = s.order.dropLast ++ [⟨q, l⟩] := by
  obtain ⟨l', hl', ho⟩ := hI.latest q h
  rw [hl] at hl'
  obtain rfl := Option.some.inj hl'
  obtain ⟨ys, hys⟩ := List.getLast?_eq_some_iff.mp ho
  rw [hys]
  simp

theorem State.Inv.addresses_nodup (hI : s.Inv) : (s.buf.map Prod.fst).Nodup := by
  rw [hI.addresses]; exact List.nodup_range

/-- The slot write of the holder is that of its critical section, done now or done already. -/
theorem State.Inv.writeSlot_buffer (hI : s.Inv) {l : ReqLatch} {m : Memory} (h : s.holdsIn q .held)
    (hl : (s.request q).req = some l)
    (hm : Memory.writeBytes s.buf (slotAddress l.led) l.pixel.bytes = some m) :
    m = replay s.resetBuffer s.order := by
  have hord := hI.order_of_holder h.1 hl
  have hb := hI.buffer
  simp only [State.committed, h.1] at hb
  have hsec : ∀ m0 : Memory, m0 = replay s.resetBuffer s.order.dropLast →
      replay s.resetBuffer s.order = writeSection m0 ⟨q, l⟩ := by
    rintro m0 rfl
    conv_lhs => rw [hord]
    rw [replay_append]; rfl
  by_cases hd : (s.request q).slotDone = true
  · rw [if_pos hd] at hb
    rw [← hb]
    rw [hsec _ rfl] at hb
    have hlt : l.led < s.chips := by
      obtain ⟨l', hl', hr, _⟩ := Request.fits_held (hI.fits q) h.2
      rw [hl] at hr
      rwa [Option.some.inj hr]
    unfold writeSection at hb
    have hk : ((replay s.resetBuffer s.order.dropLast).map Prod.fst) = s.buf.map Prod.fst := by
      rw [hI.buffer, replay_addresses, replay_addresses]
    have hin : ∀ j < l.pixel.bytes.length, slotAddress l.led + j ∈
        (replay s.resetBuffer s.order.dropLast).map Prod.fst := by
      intro j hj
      have hj9 : j < 9 := by simpa [EncodedPixel.bytes, EncodedChannel.bytes] using hj
      rw [hk, hI.addresses, List.mem_range, hI.bufLength_eq]
      simp only [slotAddress, Config.slotBytes]
      omega
    obtain ⟨m1, h1⟩ := Memory.writeBytes_isSome _ _ _ hin
    rw [h1] at hb
    simp only [Option.getD_some] at hb
    have := Memory.writeBytes_idem h1 (by rw [hk]; exact hI.addresses_nodup) hin
    rw [hb, this] at hm
    rw [hb]
    exact (Option.some.inj hm).symm
  · rw [if_neg hd] at hb
    rw [hsec _ hb, writeSection, hm]
    rfl

theorem State.Inv.writeSlot (hI : s.Inv) (h : Machine.writeSlot s q = .next t) : t.Inv := by
  rcases writeSlot_eq_next h with rfl | ⟨l, p, m, hq, hr, hp, hm, ht⟩
  · exact hI
  clear h
  obtain ⟨l', hl, hr', hpx, hsd, hf, hst⟩ := Request.fits_held (hI.fits q) hq.2
  rw [hr] at hr'
  obtain rfl := Option.some.inj hr'
  have hpl : p = l.pixel := by
    rcases hpx with h0 | h0
    · rw [hp] at h0; cases h0
    · rw [hp] at h0; exact Option.some.inj h0
  subst hpl
  have hu := hI.up_of_made (q := q) (by simp [hq.2])
  have hbuf := hI.writeSlot_buffer hq hr hm
  have hkeys := (Memory.writeBytes_spec _ hm).2
  have hreq : ∀ p, t.request p = if p = q then { s.request q with slotDone := true } else s.request p := fun p => by
    rw [ht]; exact State.request_setRequest s q p _
  have hph : ∀ p, t.phase p = s.phase p := fun p => by
    rw [ht]
    refine (State.phase_setRequest s q p _).trans ?_
    split
    · subst_vars; rfl
    · rfl
  have hlock : t.lock = s.lock := by rw [ht]; rfl
  have horder : t.order = s.order := by rw [ht]; rfl
  have hwire : t.wire = s.wire := by rw [ht]; rfl
  have hreset : t.resetBuffer = s.resetBuffer := by rw [ht]; rfl
  have hchips : t.chips = s.chips := by rw [ht]; rfl
  have htbuf : t.buf = m := by rw [ht]; rfl
  refine ⟨?_, fun _ => ?_, ?_, ?_, ?_, ?_, ?_, ?_, ?_, ?_, ?_, ?_, ?_, ?_⟩
  · intro h; rw [ht] at h; simp [hu] at h
  · rw [ht]; exact hI.topology hu
  · rw [ht]; exact hI.endpoints
  · rw [ht]; exact hkeys.trans hI.addresses
  · rw [ht]; exact Requests.wf_set _ _ _ (by change s.phase q ≠ .idle; simp [hq.2]) hI.requests
  · intro p
    rw [hreq, hchips, State.contents, htbuf]
    split
    · have hph' : ({ s.request q with slotDone := true } : Request).phase = .held := hq.2
      unfold Request.fits
      rw [hph']
      refine ⟨l, hl, hr, hpx, fun _ => hp, fun f hf' => ⟨rfl, ?_⟩, hst⟩
      obtain ⟨hd, rfl⟩ := hf f hf'
      have : m = s.buf := by
        rw [hbuf, hI.buffer]
        simp [State.committed, hq.1, hd]
      rw [this]; rfl
    · rename_i hpq
      refine Request.fits_any_contents (hI.fits p) ?_
      by_contra hc
      exact hpq (hI.one_holder (by simp [hq.2, Phase.holdsLock]) (by simpa [State.phase] using hc))
  · intro p; rw [hph, hlock]; exact hI.holder p
  · rw [horder]; exact hI.once
  · intro c hc; rw [horder] at hc; rw [hph, hchips]; exact hI.sections c hc
  · intro p hp'
    rw [hlock] at hp'
    obtain ⟨l0, hl0, ho⟩ := hI.latest p hp'
    refine ⟨l0, ?_, by rw [horder]; exact ho⟩
    rw [hreq]
    split
    · subst_vars; exact hl0
    · exact hl0
  · rw [htbuf, hbuf, hreset]
    congr 1
    simp [State.committed, hlock, hq.1, hreq, horder]
  · rw [hwire, hI.frames, hreset]
    congr 1
    simp [State.answered, hlock, hq.1, hph, horder]
  · intro w hw
    rw [hwire] at hw
    rw [hreq]
    split
    · rename_i h; have := hI.statuses w hw; rw [h] at this; exact this
    · exact hI.statuses w hw
  · intro p st h'
    rw [hreq] at h'
    rw [hwire]
    split at h'
    · subst_vars; exact hI.sources _ st h'
    · exact hI.sources p st h'

theorem State.Inv.takeAnswer (hI : s.Inv) (q : Nat) : (Machine.takeAnswer s q).Inv := by
  rcases takeAnswer_cases s q with h | ⟨a, f, hq, htx, hfr, h⟩ <;> rw [h]
  · exact hI
  clear h
  obtain ⟨l, hl, hr⟩ := (Request.fits_of_phase (hI.fits q)).2.2.2.1 hq.2
  have hu := hI.up_of_made (q := q) (by simp [hq.2])
  have hf : f = padFrame s.contents := by rw [hr] at hfr; exact (Option.some.inj hfr).symm
  subst hf
  rw [hr]
  generalize ht : (s.setRequest q _).appendWire _ = t
  have hreq : ∀ p, t.request p = if p = q then
      ⟨.rel, some l, some l.pixel, true, some (padFrame s.contents), some a.toStatus⟩ else s.request p := fun p => by
    rw [← ht]; exact State.request_setRequest s q p _
  have hph : ∀ p, t.phase p = if p = q then .rel else s.phase p := fun p => by
    rw [← ht]; exact State.phase_setRequest s q p _
  have hst : (s.request q).status = none := by rw [hr]
  have hord := hI.order_of_holder hq.1 (l := l) (by rw [hr])
  have hbuf : s.buf = replay s.resetBuffer s.order := by
    have := hI.buffer
    simpa [State.committed, hq.1, hr] using this
  have hlock : t.lock = .held q := by rw [← ht]; exact hq.1
  have horder : t.order = s.order := by rw [← ht]; rfl
  have hwire : t.wire = s.wire ++ [⟨q, padFrame s.contents, a⟩] := by rw [← ht]; rfl
  have hreset : t.resetBuffer = s.resetBuffer := by rw [← ht]; rfl
  have hchips : t.chips = s.chips := by rw [← ht]; rfl
  have hcont : t.contents = s.contents := by rw [← ht]; rfl
  refine ⟨?_, fun _ => ?_, ?_, ?_, ?_, ?_, ?_, ?_, ?_, ?_, ?_, ?_, ?_, ?_⟩
  · intro h; rw [← ht] at h; simp [hu] at h
  · rw [← ht]; exact hI.topology hu
  · rw [← ht]; exact hI.endpoints
  · rw [← ht]; exact hI.addresses
  · rw [← ht]; exact Requests.wf_set _ _ _ (by simp) hI.requests
  · intro p
    rw [hreq, hchips, hcont]
    split
    · exact ⟨l, a, hl, rfl⟩
    · exact hI.fits p
  · intro p
    rw [hph, hlock]
    split
    · subst_vars; simp [Phase.holdsLock]
    · rw [← hq.1]; exact hI.holder p
  · rw [horder]; exact hI.once
  · intro c hc
    rw [horder] at hc
    rw [hph, hchips]
    refine ⟨(hI.sections c hc).1, ?_⟩
    split
    · exact .inl rfl
    · exact (hI.sections c hc).2
  · intro p hp
    rw [hlock, ← hq.1] at hp
    obtain ⟨l0, hl0, ho⟩ := hI.latest p hp
    refine ⟨l0, ?_, by rw [horder]; exact ho⟩
    rw [hreq]
    split
    · subst_vars; rw [hr] at hl0; exact hl0
    · exact hl0
  · rw [show t.buf = s.buf by rw [← ht]; rfl, hbuf, hreset]
    congr 1
    simp [State.committed, hlock, hreq, horder]
  · rw [hwire, List.map_append, hI.frames, hreset]
    simp only [State.answered, hlock, hph, if_true, horder, hq.1, hq.2]
    conv_rhs => rw [hord]
    rw [framesOf_append, if_neg (by simp)]
    congr 1
    simp only [framesOf, List.map_cons, List.map_nil, List.cons.injEq, and_true, Prod.mk.injEq, true_and]
    rw [State.contents, hbuf]
    conv_lhs => rw [hord]
    rw [replay_append]
    rfl
  · intro w hw
    rw [hwire, List.mem_append, List.mem_singleton] at hw
    rw [hreq]
    rcases hw with hw | rfl
    · rw [if_neg (hI.not_in_wire hst w hw)]
      exact hI.statuses w hw
    · rw [if_pos rfl]
  · intro p st h'
    rw [hreq] at h'
    rw [hwire]
    split at h'
    · subst_vars
      exact .inr ⟨_, List.mem_append.mpr (.inr (List.mem_singleton.mpr rfl)), rfl, Option.some.inj h'⟩
    · rcases hI.sources p st h' with h' | ⟨w, hw, h'⟩
      · exact .inl h'
      · exact .inr ⟨w, List.mem_append.mpr (.inl hw), h'⟩

theorem State.Inv.release (hI : s.Inv) (q : Nat) : (Machine.release s q).Inv := by
  by_cases h : s.holdsIn q .rel
  swap
  · rw [release_of_not_holder h]; exact hI
  obtain ⟨l, a, hl, hr⟩ := (Request.fits_of_phase (hI.fits q)).2.2.2.2.1 h.2
  have hu := hI.up_of_made (q := q) (by simp [h.2])
  rw [release_of_holder h, hr]
  generalize ht : (s.endRequest q _).setLock .free = t
  have hreq : ∀ p, t.request p =
      if p = q then ⟨.done, none, none, false, none, some a.toStatus⟩ else s.request p := fun p => by
    rw [← ht]; exact State.request_setRequest s q p _
  have hph : ∀ p, t.phase p = if p = q then .done else s.phase p := fun p => by
    rw [← ht]; exact State.phase_setRequest s q p _
  have hbuf : s.buf = replay s.resetBuffer s.order := by
    have := hI.buffer
    simpa [State.committed, h.1, hr] using this
  have hfr : s.wire.map (fun w => (w.q, w.frame)) = framesOf s.resetBuffer s.order := by
    have := hI.frames
    simpa [State.answered, h.1, h.2] using this
  have hother : ∀ p, p ≠ q → (s.phase p).holdsLock = false := fun p hpq => by
    by_contra hc
    exact hpq (hI.one_holder (by simp [h.2, Phase.holdsLock]) (by simpa using hc))
  have hlock : t.lock = .free := by rw [← ht]; rfl
  have horder : t.order = s.order := by rw [← ht]; rfl
  have hwire : t.wire = s.wire := by rw [← ht]; rfl
  have hreset : t.resetBuffer = s.resetBuffer := by rw [← ht]; rfl
  have hchips : t.chips = s.chips := by rw [← ht]; rfl
  have hcont : t.contents = s.contents := by rw [← ht]; rfl
  refine ⟨?_, fun _ => ?_, ?_, ?_, ?_, ?_, ?_, ?_, ?_, ?_, ?_, ?_, ?_, ?_⟩
  · intro h'; rw [← ht] at h'; simp [hu] at h'
  · rw [← ht]; exact hI.topology hu
  · rw [← ht]; exact hI.endpoints
  · rw [← ht]; exact hI.addresses
  · rw [← ht]; exact Requests.wf_set _ _ _ (by simp) hI.requests
  · intro p
    rw [hreq, hchips, hcont]
    split
    · exact ⟨_, rfl⟩
    · exact hI.fits p
  · intro p
    rw [hph, hlock]
    split
    · simp [Phase.holdsLock]
    · rename_i hpq; simp [hother p hpq]
  · rw [horder]; exact hI.once
  · intro c hc
    rw [horder] at hc
    rw [hph, hchips]
    refine ⟨(hI.sections c hc).1, ?_⟩
    split
    · exact .inr rfl
    · exact (hI.sections c hc).2
  · intro p hp; rw [hlock] at hp; cases hp
  · rw [show t.buf = s.buf by rw [← ht]; rfl, hbuf, hreset]
    congr 1
    simp [State.committed, hlock, horder]
  · rw [hwire, hfr, hreset]
    congr 1
    simp [State.answered, hlock, horder]
  · intro w hw
    rw [hwire] at hw
    rw [hreq]
    have h0 := hI.statuses w hw
    split
    · rename_i hwq; rw [hwq, hr] at h0; exact h0
    · exact h0
  · intro p st hs
    rw [hreq] at hs
    rw [hwire]
    split at hs
    · subst_vars
      exact hI.sources _ st (by rw [hr]; exact hs)
    · exact hI.sources p st hs

theorem State.Inv.work (hI : s.Inv) (h : Machine.work s q = .next t) : t.Inv := by
  obtain ⟨s1, h1, h⟩ := andThen_eq_next h
  obtain ⟨s2, h2, h⟩ := andThen_eq_next h
  obtain rfl : Machine.beginWrite s2 q = t := by simpa using h
  exact (((hI.latchPixel q).writeSlot h1).composeFrame h2).beginWrite q

/-- Everything the work under the lock does in a state of the invariant (43_update.md R115): it cannot fault, the
operands' pixel is written to their slot, and the frame is the buffer with it, between the pads. -/
theorem State.Inv.work_eq (hI : s.Inv) (h : s.holdsIn q .held) :
    ∃ l m, l.led < s.chips ∧ (s.request q).req = some l ∧
      Memory.writeBytes s.buf (slotAddress l.led) l.pixel.bytes = some m ∧
      Machine.work s q = .next ((s.setRequest q
        ⟨.send, some l, some l.pixel, true, some (padFrame (m.map Prod.snd)), none⟩).setBuf m) := by
  obtain ⟨l, hl, hr, _, _, _, hst⟩ := Request.fits_held (hI.fits q) h.2
  obtain ⟨m, hm⟩ := hI.slot_writable hl l.pixel
  have hp : (s.request q).phase = .held := h.2
  refine ⟨l, m, hl, hr, hm, ?_⟩
  generalize hr1 : ({ s.request q with px := some l.pixel } : Request) = r1
  have h1 : Machine.latchPixel s q = s.setRequest q r1 := by rw [← hr1]; exact latchPixel_of_holder h hr
  have hI1 := hI.latchPixel q
  rw [h1] at hI1
  generalize hr2 : ({ r1 with slotDone := true } : Request) = r2
  have hw : Machine.writeSlot (s.setRequest q r1) q = .next ((s.setRequest q r2).setBuf m) := by
    rw [writeSlot_of_enabled (s := s.setRequest q r1) (l := l) (p := l.pixel) (m := m)
      ⟨h.1, by simp [State.phase, ← hr1, hp]⟩ (by simp [← hr1, hr]) (by simp [← hr1]) hm]
    simp [hr2]
  have hI2 := hI1.writeSlot hw
  have hwhole := hI2.wholeBuffer_eq
  rw [State.setBuf_contents] at hwhole
  have hc := composeFrame_of_enabled (s := (s.setRequest q r2).setBuf m) (q := q)
    ⟨⟨h.1, by simp [State.phase, ← hr2, ← hr1, hp]⟩, by simp [← hr2]⟩ hwhole
  have hswap : ∀ a b : Request, ((s.setRequest q a).setBuf m).setRequest q b = (s.setRequest q b).setBuf m :=
    fun a b => by
      rw [show ((s.setRequest q a).setBuf m).setRequest q b = ((s.setRequest q a).setRequest q b).setBuf m from rfl,
        State.setRequest_setRequest]
  rw [hswap] at hc
  generalize hr3 : ({ ((s.setRequest q r2).setBuf m).request q with frame := some (padFrame (m.map Prod.snd)) } :
    Request) = r3 at hc
  have hr3' : r3 = { r2 with frame := some (padFrame (m.map Prod.snd)) } := by simp [← hr3]
  have hb := beginWrite_of_enabled (s := (s.setRequest q r3).setBuf m) (q := q)
    ⟨⟨h.1, by simp [State.phase, hr3', ← hr2, ← hr1, hp]⟩, by simp [hr3']⟩
  unfold Machine.work
  rw [h1, hw, andThen_next, hc, andThen_next, hb, hswap]
  simp [hr3', ← hr2, ← hr1, hr, hst]

/-- The invariant concerns the block only, not its schedule, inputs and observation port. -/
theorem State.Inv.of_block (hI : s.Inv) (h : t.block = s.block) : t.Inv := by
  have key : ∀ u : State, u.Inv ↔ u.block.Inv := fun u =>
    ⟨fun h => ⟨h.down, h.topology, h.endpoints, h.addresses, h.requests, h.fits, h.holder, h.once, h.sections,
        h.latest, h.buffer, h.frames, h.statuses, h.sources⟩,
      fun h => ⟨h.down, h.topology, h.endpoints, h.addresses, h.requests, h.fits, h.holder, h.once, h.sections,
        h.latest, h.buffer, h.frames, h.statuses, h.sources⟩⟩
  exact (key t).mpr (h ▸ (key s).mp hI)

theorem State.Inv.answers (hI : s.Inv) (r : Result) : (s.answers r).Inv := hI.of_block rfl
theorem State.Inv.reporting (hI : s.Inv) (q : Nat) : (s.reporting q).Inv := hI.of_block rfl
theorem State.Inv.beginTurn (hI : s.Inv) (x : Turn) (rest : List Turn) : (s.beginTurn x rest).Inv := hI.of_block rfl

theorem State.Inv.advance (hI : s.Inv) (h : Machine.advance s q = .next t) : t.Inv := by
  unfold Machine.advance at h
  cases hp : s.phase q with
  | held =>
    rw [hp] at h
    obtain ⟨s1, h1, h⟩ := andThen_eq_next h
    obtain rfl : s1.reporting q = t := by simpa using h
    exact (hI.work h1).reporting q
  | idle => rw [hp] at h; obtain rfl := Host.Outcome.next.inj h; exact hI.answers _
  | done => rw [hp] at h; obtain rfl := Host.Outcome.next.inj h; exact hI.answers _
  | check => rw [hp] at h; obtain rfl := Host.Outcome.next.inj h; exact (hI.checkFrame q).reporting q
  | wait => rw [hp] at h; obtain rfl := Host.Outcome.next.inj h; exact (hI.acquire q).reporting q
  | send => rw [hp] at h; obtain rfl := Host.Outcome.next.inj h; exact (hI.takeAnswer q).reporting q
  | rel => rw [hp] at h; obtain rfl := Host.Outcome.next.inj h; exact (hI.release q).reporting q

theorem State.Inv.runRequest (hI : s.Inv) (h : Machine.runRequest s q = .next t) : t.Inv := by
  obtain ⟨s1, h1, h⟩ := andThen_eq_next h
  obtain rfl := by simpa using h
  exact ((((hI.checkFrame q).acquire q).work h1).takeAnswer q |>.release q).reporting q

/-- A block that comes up with a supported topology meets the invariant. -/
theorem State.Inv.comeUp (hI : s.Inv) (hd : s.up = false) {n : Nat} (hn : 0 < n) :
    (Machine.comeUp ⟨n, Config.channels, Config.slotBytes⟩ s).Inv := by
  obtain ⟨_, hl, hr, hw, ho⟩ := hI.down hd
  have hreq : ∀ p, State.request (Machine.comeUp ⟨n, Config.channels, Config.slotBytes⟩ s) p = Request.idle :=
    fun p => by simp [State.request, Machine.comeUp, hr, Requests.get]
  refine ⟨by simp [Machine.comeUp], fun _ => ⟨hn, rfl⟩, rfl, ?_, by simp [Machine.comeUp, hr, Requests.wf], ?_, ?_, ?_,
    ?_, ?_, ?_, ?_, ?_, ?_⟩
  · simp only [Machine.comeUp, Memory.fresh_addresses, State.bufLength, List.range_eq_range']
  · intro p; rw [hreq]; rfl
  · intro p
    rw [State.phase, hreq]
    simp [Phase.holdsLock, Request.idle, Machine.comeUp]
  · simp [Machine.comeUp, ho]
  · simp [Machine.comeUp, ho]
  · intro p hp; simp [Machine.comeUp] at hp
  · simp [Machine.comeUp, State.committed, ho, replay, State.resetBuffer, State.bufLength]
  · simp [Machine.comeUp, State.answered, ho, hw, framesOf]
  · simp [Machine.comeUp, hw]
  · intro p st h; simp [hreq, Request.idle] at h

/-- A block that is down and of which nothing exists meets the invariant (10_state.md R24). -/
theorem State.Inv.of_nothing (hup : s.up = false) (ht : s.topo = none) (he : s.endpoints = []) (hb : s.buf = [])
    (hl : s.lock = .free) (hr : s.reqs = []) (hw : s.wire = []) (ho : s.order = []) : s.Inv := by
  have hreq : ∀ p, s.request p = Request.idle := fun p => by simp [State.request, hr, Requests.get]
  have hph : ∀ p, s.phase p = .idle := fun p => by simp [State.phase, hreq, Request.idle]
  have hlen : s.bufLength = 0 := by simp [State.bufLength, ht]
  refine ⟨fun _ => ⟨ht, hl, hr, hw, ho⟩, by simp [hup], by simp [he, State.chips, ht], by simp [hb, hlen],
    by simp [hr, Requests.wf], fun p => by rw [hreq]; rfl, fun p => by simp [hl, hph, Phase.holdsLock], by simp [ho],
    by simp [ho], by simp [hl], ?_, ?_, by simp [hw], fun p st h => by simp [hreq, Request.idle] at h⟩
  · simp [State.committed, hl, ho, replay, State.resetBuffer, hlen, Memory.fresh, hb]
  · simp [State.answered, hl, ho, hw, framesOf]

end Sys2Proof.Machine
end

