-- ==== Sys2Proof/Laws/PerInstr.lean ====
section
/-! SUPPORT. Per operation, as syntax: the word of a well-formed operation has no bit above the width of its port
(spec/opcode_table.json, the lengths of the patterns). -/

namespace Sys2Proof.Laws.PortFit

/-- The operation, if it has a word, is encoded as a word that fits its port. -/
def Statement (i : Instr) : Prop :=
  i.WellFormed = true → ∃ p w, encode i = .word p w ∧ w < 2 ^ p.width

theorem sym0 : Statement .sym0 := fun _ => ⟨.symbol, 0, rfl, by decide⟩

theorem sym1 : Statement .sym1 := fun _ => ⟨.symbol, 1, rfl, by decide⟩

theorem lutH0 : Statement .lutH0 := fun _ => ⟨.entryH, 0, rfl, by decide⟩

theorem lutH1 : Statement .lutH1 := fun _ => ⟨.entryH, 1, rfl, by decide⟩

theorem lutH2 : Statement .lutH2 := fun _ => ⟨.entryH, 2, rfl, by decide⟩

theorem lutH3 : Statement .lutH3 := fun _ => ⟨.entryH, 3, rfl, by decide⟩

theorem lutH4 : Statement .lutH4 := fun _ => ⟨.entryH, 4, rfl, by decide⟩

theorem lutH5 : Statement .lutH5 := fun _ => ⟨.entryH, 5, rfl, by decide⟩

theorem lutH6 : Statement .lutH6 := fun _ => ⟨.entryH, 6, rfl, by decide⟩

theorem lutH7 : Statement .lutH7 := fun _ => ⟨.entryH, 7, rfl, by decide⟩

theorem lutM0 : Statement .lutM0 := fun _ => ⟨.entryM, 0, rfl, by decide⟩

theorem lutM1 : Statement .lutM1 := fun _ => ⟨.entryM, 1, rfl, by decide⟩

theorem lutM2 : Statement .lutM2 := fun _ => ⟨.entryM, 2, rfl, by decide⟩

theorem lutM3 : Statement .lutM3 := fun _ => ⟨.entryM, 3, rfl, by decide⟩

theorem lutL0 : Statement .lutL0 := fun _ => ⟨.entryL, 0, rfl, by decide⟩

theorem lutL1 : Statement .lutL1 := fun _ => ⟨.entryL, 1, rfl, by decide⟩

theorem lutL2 : Statement .lutL2 := fun _ => ⟨.entryL, 2, rfl, by decide⟩

theorem lutL3 : Statement .lutL3 := fun _ => ⟨.entryL, 3, rfl, by decide⟩

theorem lutL4 : Statement .lutL4 := fun _ => ⟨.entryL, 4, rfl, by decide⟩

theorem lutL5 : Statement .lutL5 := fun _ => ⟨.entryL, 5, rfl, by decide⟩

theorem lutL6 : Statement .lutL6 := fun _ => ⟨.entryL, 6, rfl, by decide⟩

theorem lutL7 : Statement .lutL7 := fun _ => ⟨.entryL, 7, rfl, by decide⟩

theorem lutH (k : Key3) : Statement (.lutH k) :=
  fun _ => ⟨.keyH, k.toNat, rfl, k.isLt⟩

theorem lutM (k : Key2) : Statement (.lutM k) :=
  fun _ => ⟨.keyM, k.toNat, rfl, k.isLt⟩

theorem lutL (k : Key3) : Statement (.lutL k) :=
  fun _ => ⟨.keyL, k.toNat, rfl, k.isLt⟩

theorem encCh (v : Byte) : Statement (.encCh v) :=
  fun _ => ⟨.channel, v.toNat, rfl, v.isLt⟩

theorem encPx (ch0 ch1 ch2 : Byte) : Statement (.encPx ch0 ch1 ch2) :=
  fun _ => ⟨.pixel, pixelWord ch0 ch1 ch2, rfl, by
    have h0 := ch0.isLt
    have h1 := ch1.isLt
    have h2 := ch2.isLt
    simp only [pixelWord, Port.width]
    omega⟩

theorem slotWr : Statement .slotWr := fun _ => ⟨.slotWr, 0, rfl, by decide⟩

theorem bufRd : Statement .bufRd := fun _ => ⟨.bufRd, 0, rfl, by decide⟩

theorem compose : Statement .compose := fun _ => ⟨.compose, 0, rfl, by decide⟩

theorem xmit : Statement .xmit := fun _ => ⟨.xmit, 0, rfl, by decide⟩

theorem lockAcq : Statement .lockAcq := fun _ => ⟨.lockAcq, 0, rfl, by decide⟩

theorem lockRel : Statement .lockRel := fun _ => ⟨.lockRel, 0, rfl, by decide⟩

theorem update (led : Nat) (ch0 ch1 ch2 : Byte) : Statement (.update led ch0 ch1 ch2) := by
  intro h
  have hled : led < 256 := by simpa [Instr.WellFormed, Instr.ledFitsWord, Instr.hasWord] using h
  refine ⟨.request, requestWord led ch0 ch1 ch2, by simp [encode, hled], ?_⟩
  have h0 := ch0.isLt
  have h1 := ch1.isLt
  have h2 := ch2.isLt
  simp only [requestWord, pixelWord, Port.width]
  omega

theorem bringup (n c b found : Nat) : Statement (.bringup n c b found) :=
  fun h => by simp [Instr.WellFormed, Instr.hasWord] at h

end Sys2Proof.Laws.PortFit
end

