-- ==== Sys2Proof/Tests/Slice0.lean ====
section
/-! SUPPORT. Tests, with results from 95_test_vectors.md and from hand calculation from the rules, and one witness for
every statement that has hypotheses: a concrete state and operands that meet them together. -/

namespace Sys2Proof.Tests

open Sys2Proof Sys2Proof.Machine

/-! ### Small states -/

/-- The next state of a step that answers one. -/
def after (o : Step) : State :=
  match o with
  | .next s => s
  | _ => State.reset

/-- The bytes `bs` at the addresses from `a` on. -/
def cells (a : Nat) : List Byte → Memory
  | [] => []
  | b :: bs => (a, b) :: cells (a + 1) bs

/-- `ENC_PX` of green, of blue and of red alone at full (95_test_vectors.md section 2.4). -/
def greenPx : List Byte := [0xDB, 0x6D, 0xB6, 0x92, 0x49, 0x24, 0x92, 0x49, 0x24]
def bluePx : List Byte := [0x92, 0x49, 0x24, 0x92, 0x49, 0x24, 0xDB, 0x6D, 0xB6]
def redPx : List Byte := [0x92, 0x49, 0x24, 0xDB, 0x6D, 0xB6, 0x92, 0x49, 0x24]

/-- `N = 2`, slot 0 green and slot 1 blue, the lock free, both answers `ok` (95_test_vectors.md section 2.8). -/
def bench : State :=
  { State.reset with
    up := true
    topo := some ⟨2, 3, 9⟩
    endpoints := [⟨0⟩, ⟨1⟩]
    buf := cells 0 (greenPx ++ bluePx)
    tx := some .ok }

/-- The operands of the request of these tests: position 1, red at full. -/
def redAtOne : ReqLatch := ⟨1, 0xFF, 0x00, 0x00⟩

/-- Request 0 with the given values. -/
def one (r : Request) : State := { bench with reqs := [(0, r)] }

/-- Request 0 with the given values, holding the lock. -/
def holding (r : Request) : State := { one r with lock := .held 0, order := [⟨0, redAtOne⟩] }

def checking : State := one ⟨.check, some redAtOne, none, false, none, none⟩
def waiting : State := one ⟨.wait, some redAtOne, none, false, none, none⟩
def held : State := holding ⟨.held, some redAtOne, none, false, none, none⟩
def encoded : State := holding ⟨.held, some redAtOne, some redAtOne.pixel, false, none, none⟩
def slotWritten : State :=
  { holding ⟨.held, some redAtOne, some redAtOne.pixel, true, none, none⟩ with buf := cells 0 (greenPx ++ redPx) }
def redFrame : List Byte := [0x00] ++ greenPx ++ redPx ++ [0x00]
def composed : State :=
  { holding ⟨.held, some redAtOne, some redAtOne.pixel, true, some redFrame, none⟩ with
    buf := cells 0 (greenPx ++ redPx) }
def sending : State :=
  { holding ⟨.send, some redAtOne, some redAtOne.pixel, true, some redFrame, none⟩ with
    buf := cells 0 (greenPx ++ redPx) }
def releasing (st : Status) : State :=
  { holding ⟨.rel, some redAtOne, some redAtOne.pixel, true, some redFrame, some st⟩ with
    buf := cells 0 (greenPx ++ redPx) }

/-- A turn of agent 0. -/
def turn0 (a : Act) : Turn := ⟨0, .ok, some .ok, a⟩

/-! ### WellFormed refuses -/

theorem test_wellformed_refuses_led_256 : Instr.WellFormed (.update 256 0 0 0) = false := by decide
theorem test_wellformed_admits_led_255 : Instr.WellFormed (.update 255 0 0 0) = true := by decide
theorem test_wellformed_refuses_bringup : Instr.WellFormed (.bringup 2 3 9 2) = false := by decide

/-! ### Decoding: words written out from spec/opcode_table.json and 30_encoding.md -/

theorem test_decode_symbols :
    decode (.word .symbol 0b0) = .ok .sym0 ∧ decode (.word .symbol 0b1) = .ok .sym1 := by decide

theorem test_decode_entries_high :
    decode (.word .entryH 0b000) = .ok .lutH0 ∧ decode (.word .entryH 0b001) = .ok .lutH1 ∧
    decode (.word .entryH 0b010) = .ok .lutH2 ∧ decode (.word .entryH 0b011) = .ok .lutH3 ∧
    decode (.word .entryH 0b100) = .ok .lutH4 ∧ decode (.word .entryH 0b101) = .ok .lutH5 ∧
    decode (.word .entryH 0b110) = .ok .lutH6 ∧ decode (.word .entryH 0b111) = .ok .lutH7 := by decide

theorem test_decode_entries_mid :
    decode (.word .entryM 0b00) = .ok .lutM0 ∧ decode (.word .entryM 0b01) = .ok .lutM1 ∧
    decode (.word .entryM 0b10) = .ok .lutM2 ∧ decode (.word .entryM 0b11) = .ok .lutM3 := by decide

theorem test_decode_entries_low :
    decode (.word .entryL 0b000) = .ok .lutL0 ∧ decode (.word .entryL 0b001) = .ok .lutL1 ∧
    decode (.word .entryL 0b010) = .ok .lutL2 ∧ decode (.word .entryL 0b011) = .ok .lutL3 ∧
    decode (.word .entryL 0b100) = .ok .lutL4 ∧ decode (.word .entryL 0b101) = .ok .lutL5 ∧
    decode (.word .entryL 0b110) = .ok .lutL6 ∧ decode (.word .entryL 0b111) = .ok .lutL7 := by decide

theorem test_decode_keys :
    decode (.word .keyH 0b101) = .ok (.lutH 5) ∧ decode (.word .keyM 0b10) = .ok (.lutM 2) ∧
    decode (.word .keyL 0b110) = .ok (.lutL 6) := by decide

theorem test_decode_encoders :
    decode (.word .channel 0xF0) = .ok (.encCh 0xF0) ∧
    decode (.word .pixel 0x123456) = .ok (.encPx 0x12 0x34 0x56) := by decide

theorem test_decode_operations_without_bits :
    decode (.word .slotWr 0) = .ok .slotWr ∧ decode (.word .bufRd 0) = .ok .bufRd ∧
    decode (.word .compose 0) = .ok .compose ∧ decode (.word .xmit 0) = .ok .xmit ∧
    decode (.word .lockAcq 0) = .ok .lockAcq ∧ decode (.word .lockRel 0) = .ok .lockRel := by decide

/-- 95_test_vectors.md section 2.5. -/
theorem test_decode_request_words :
    decode (.word .request 0x00FF0000) = .ok (.update 0 0xFF 0x00 0x00) ∧
    decode (.word .request 0x0100FF00) = .ok (.update 1 0x00 0xFF 0x00) ∧
    decode (.word .request 0x010000FF) = .ok (.update 1 0x00 0x00 0xFF) ∧
    decode (.word .request 0x00123456) = .ok (.update 0 0x12 0x34 0x56) ∧
    decode (.word .request 0xFFFFFFFF) = .ok (.update 255 0xFF 0xFF 0xFF) := by decide

theorem test_decode_records :
    decode (.updateRecord 300 1 2 3) = .ok (.update 300 1 2 3) ∧
    decode (.bringupRecord 2 3 9 1) = .ok (.bringup 2 3 9 1) := by decide

theorem test_decode_rejects :
    decode (.word .keyM 0b100) = .error .wordTooWide ∧ decode (.noPort 16 0) = .error .noSuchPort := by decide

theorem test_decode_table_words :
    decodeTableWord 8 0xF0 = some (.encCh 0xF0) ∧ decodeTableWord 24 0x123456 = some (.encPx 0x12 0x34 0x56) ∧
    decodeTableWord 32 0x02010204 = some (.update 2 0x01 0x02 0x04) ∧ decodeTableWord 16 0 = none := by decide

/-- A bare word placed at reset runs in the very next step (the entry of key 5, `D3`, 95_test_vectors.md 2.1). -/
theorem test_placed_word_runs_first :
    (after (step (State.reset.withFetchWord 8 5))).result = .byte 0xD3 := by decide

/-! ### One step each -/

theorem test_sym0 : (after (exec .sym0 State.reset)).result = .symbol 0b100 := by decide
theorem test_sym1 : (after (exec .sym1 State.reset)).result = .symbol 0b110 := by decide

/-- 95_test_vectors.md section 2.1, each row of its table. -/
theorem test_entries_high :
    [Instr.lutH0, .lutH1, .lutH2, .lutH3, .lutH4, .lutH5, .lutH6, .lutH7].map
      (fun i => (after (exec i State.reset)).result) =
    [.byte 0x92, .byte 0x93, .byte 0x9A, .byte 0x9B, .byte 0xD2, .byte 0xD3, .byte 0xDA, .byte 0xDB] := by decide

theorem test_entries_mid :
    [Instr.lutM0, .lutM1, .lutM2, .lutM3].map (fun i => (after (exec i State.reset)).result) =
    [.byte 0x49, .byte 0x4D, .byte 0x69, .byte 0x6D] := by decide

theorem test_entries_low :
    [Instr.lutL0, .lutL1, .lutL2, .lutL3, .lutL4, .lutL5, .lutL6, .lutL7].map
      (fun i => (after (exec i State.reset)).result) =
    [.byte 0x24, .byte 0x26, .byte 0x34, .byte 0x36, .byte 0xA4, .byte 0xA6, .byte 0xB4, .byte 0xB6] := by decide

theorem test_lookups :
    (after (exec (.lutH 5) State.reset)).result = .byte 0xD3 ∧ (after (exec (.lutM 2) State.reset)).result = .byte 0x69 ∧
    (after (exec (.lutL 6) State.reset)).result = .byte 0xB4 := by decide

/-- 95_test_vectors.md section 2.2. -/
theorem test_encCh :
    (after (exec (.encCh 0xF0) State.reset)).result = .bytes [0xDB, 0x69, 0x24] ∧
    (after (exec (.encCh 0x04) State.reset)).result = .bytes [0x92, 0x49, 0xA4] := by decide

/-- 95_test_vectors.md section 2.3. -/
theorem test_decodeChannel :
    decodeChannel ⟨0xD3, 0x4D, 0x34⟩ = some 0xAA ∧ decodeChannel ⟨0, 0, 0⟩ = none ∧
    decodeChannel ⟨0x92, 0x49, 0x25⟩ = none := by decide

/-- 95_test_vectors.md section 2.4. -/
theorem test_encPx :
    (after (exec (.encPx 0x12 0x34 0x56) State.reset)).result =
      .bytes [0x93, 0x69, 0xA4, 0x92, 0x69, 0x34, 0x9A, 0x69, 0xB4] := by decide

/-- The holder's own evaluation: red lands in bytes 3 to 5. -/
theorem test_encPx_latches :
    ((after (exec (.encPx 0xFF 0x00 0x00) held)).request 0).px.map EncodedPixel.bytes = some redPx := by decide

/-- 95_test_vectors.md section 2.6, second row: addresses 9 to 17 only. -/
theorem test_slotWr : (after (exec .slotWr encoded)).contents = greenPx ++ redPx := by decide

/-- Without the lock nothing is written. -/
theorem test_slotWr_without_lock : (after (exec .slotWr bench)).contents = greenPx ++ bluePx := by decide

/-- 95_test_vectors.md section 2.6, last row. -/
theorem test_bufRd : (after (exec .bufRd held)).result = .bytes (greenPx ++ bluePx) := by decide

/-- 95_test_vectors.md section 2.7: 20 bytes for `N = 2`. -/
theorem test_compose : ((after (exec .compose slotWritten)).request 0).frame = some redFrame ∧ redFrame.length = 20 := by
  decide

theorem test_xmit_fails :
    (after (exec .xmit { composed with tx := some (.fail ⟨7⟩) })).wire = [⟨0, redFrame, .fail ⟨7⟩⟩] ∧
    (after (exec .xmit { composed with tx := some (.fail ⟨7⟩) })).lock = .held 0 := by decide

/-- A silent transport: the request waits in SEND and nothing is recorded (42_composer.md section 2). -/
theorem test_xmit_waits :
    (after (exec .xmit { composed with tx := none })).phase 0 = .send ∧
    (after (exec .xmit { composed with tx := none })).wire = [] := by decide

theorem test_lockAcq : (after (exec .lockAcq waiting)).lock = .held 0 ∧ (after (exec .lockAcq waiting)).phase 0 = .held := by
  decide

/-- While another request holds the lock there is no step. -/
theorem test_lockAcq_waits : (after (exec .lockAcq { waiting with lock := .held 5 })).phase 0 = .wait := by decide

/-- The lock is freed after a failure too (43_update.md section 2). -/
theorem test_lockRel :
    (after (exec .lockRel (releasing (.transmissionFailure ⟨7⟩)))).lock = .free ∧
    (after (exec .lockRel (releasing (.transmissionFailure ⟨7⟩)))).result =
      .status (.transmissionFailure ⟨7⟩) := by decide

/-- 95_test_vectors.md section 2.8, second row: the slot keeps the new pixel after a failure. -/
theorem test_update_fails :
    let t := after (exec (.update 1 0xFF 0x00 0x00) { bench with tx := some (.fail ⟨7⟩) })
    t.contents = greenPx ++ redPx ∧ t.wire = [⟨0, redFrame, .fail ⟨7⟩⟩] ∧ t.lock = .free ∧
      t.result = .status (.transmissionFailure ⟨7⟩) := by decide

/-- 95_test_vectors.md section 2.8, third row: nothing is mutated. -/
theorem test_update_alloc_fails :
    let t := after (exec (.update 1 0xFF 0x00 0x00) { bench with alloc := .fail })
    t.contents = greenPx ++ bluePx ∧ t.wire = [] ∧ t.lock = .free ∧ t.result = .status .allocationFailure := by decide

/-- 95_test_vectors.md section 2.9. -/
theorem test_bringup_up :
    let t := after (exec (.bringup 2 3 9 2) State.reset)
    t.up = true ∧ t.bufLength = 18 ∧ t.buf.length = 18 ∧ t.endpoints.length = 2 ∧ t.lock = .free ∧ t.wire = [] ∧
      t.result = .bringup .up := by decide

theorem test_bringup_mismatch :
    (after (exec (.bringup 2 3 9 1) State.reset)).up = false ∧
    (after (exec (.bringup 2 3 9 3) State.reset)).result = .bringup .configurationMismatch ∧
    (after (exec (.bringup 2 4 12 2) State.reset)).result = .bringup .configurationMismatch ∧
    (after (exec (.bringup 0 3 9 0) State.reset)).result = .bringup .configurationMismatch := by decide

/-- The second of two chain contexts draws its own BUF_RESET (20_memory.md R44; log entry 22). -/
theorem test_chains_draw_separately :
    (chainsAtReset 2)[1]?.map (fun s => Memory.read (after (exec (.bringup 1 3 9 1) s)).buf 8) =
      some (some (Config.bufReset 1 0 8)) := rfl

/-- `BUF_RD` by the holder before its own slot write answers the buffer as it stands (log entry 29). -/
theorem test_bufRd_before_slotWr :
    (held.request 0).slotDone = false ∧ (after (exec .bufRd held)).result = .bytes (greenPx ++ bluePx) := by decide

/-- While a write is in flight nothing is known of the LED chain (log entry 24). -/
theorem test_chainView_in_flight :
    State.chainView { sending with wire := [⟨5, redFrame, .ok⟩] } = .unknown ∧
    State.chainView { bench with wire := [⟨5, redFrame, .ok⟩] } = .sent redFrame := by decide

/-! ### Witnesses: decoding and the encoder -/

theorem witness_WordsAtAPortHaveOneMeaning :
    decode (.word .pixel 0xFFFFFF) = .ok (.encPx 0xFF 0xFF 0xFF) ∧ decode (.word .pixel 0) = .ok (.encPx 0 0 0) := by
  decide

theorem witness_RequestWordFieldsAreRead : 255 < 256 ∧ 0 < 256 := by decide

theorem witness_MalformedWordsAreRefused_width :
    2 ^ Port.request.width ≤ 0x100000000 ∧ 2 ^ Port.slotWr.width ≤ 1 ∧ 2 ^ Port.keyM.width ≤ 4 := by decide

theorem witness_MalformedWordsAreRefused_step :
    (State.reset.withAgenda [turn0 (.present (.word .keyM 4))]).agenda = turn0 (.present (.word .keyM 4)) :: [] ∧
    (turn0 (.present (.word .keyM 4))).act = .present (.word .keyM 4) ∧
    decode (.word .keyM 4) = .error .wordTooWide := by decide

theorem witness_StepRunsTheDecodedOperation :
    (bench.withAgenda [turn0 (.present (.word .channel 0xF0))]).agenda = turn0 (.present (.word .channel 0xF0)) :: [] ∧
    (turn0 (.present (.word .channel 0xF0))).act = .present (.word .channel 0xF0) ∧
    decode (.word .channel 0xF0) = .ok (.encCh 0xF0) := by decide

theorem witness_StepRunsTheDecodedOperation_table :
    decodeTableWord 32 0xFFFFFFFF = some (.update 255 0xFF 0xFF 0xFF) ∧ decodeTableWord 0 0 = some .slotWr := by decide

theorem witness_ChannelWaveformBitByBit : 0 < 8 ∧ 7 < 8 := by decide

theorem witness_RoundTripLaw :
    encodeChannel 0xAA = encodeChannel 0xAA ∧ decodeChannel ⟨0xD3, 0x4D, 0x34⟩ = some 0xAA := by decide

theorem witness_EncodedBytesAreTableEntries : (0x92 : Byte) ∈ (encodePixel 0 0 0).bytes := by decide

theorem witness_PixelEncoder_pure : ¬ encodesForItself State.reset 0xFF 0x00 0x00 := fun h => by cases h.1

theorem witness_PixelEncoderLatchesTheHoldersPixel : encodesForItself held 0xFF 0x00 0x00 := ⟨rfl, rfl, 1, rfl⟩

/-! ### Witnesses: the operations -/

/-- The last slot of the chain. -/
theorem witness_SlotWriteStoresThePixelInItsSlot :
    encoded.lock = .held encoded.agent ∧ encoded.phase encoded.agent = .held ∧
    (encoded.request encoded.agent).req = some redAtOne ∧ (encoded.request encoded.agent).px = some redAtOne.pixel ∧
    ∀ j < 9, Memory.read encoded.buf (9 * redAtOne.led + j) ≠ none := by decide

theorem witness_BufferReadAnswersTheWholeBuffer :
    held.lock = .held held.agent ∧ held.bufLength = 18 ∧ ∀ a < held.bufLength, Memory.read held.buf a ≠ none := by decide

/-- A request that is at another point of its critical section. -/
theorem witness_OperationsOutOfOrderAreNoSteps :
    ¬ (held.lock = .held held.agent ∧ held.phase held.agent = .held ∧ (held.request held.agent).req ≠ none ∧
      (held.request held.agent).px ≠ none) ∧
    bench.lock ≠ .held bench.agent ∧
    ¬ (encoded.lock = .held encoded.agent ∧ encoded.phase encoded.agent = .held ∧
      (encoded.request encoded.agent).slotDone = true) ∧
    ¬ (slotWritten.lock = .held slotWritten.agent ∧ (slotWritten.phase slotWritten.agent = .send ∨
      slotWritten.phase slotWritten.agent = .held ∧ (slotWritten.request slotWritten.agent).frame ≠ none)) ∧
    checking.phase checking.agent ≠ .wait ∧
    ¬ (sending.lock = .held sending.agent ∧ sending.phase sending.agent = .rel) := by decide

theorem witness_OnlySlotWritesAndBringupChangeTheBuffer :
    exec .compose slotWritten = .next (after (exec .compose slotWritten)) ∧ (Instr.compose ≠ .slotWr) ∧
    (∀ led ch0 ch1 ch2, Instr.compose ≠ .update led ch0 ch1 ch2) ∧
    ∀ n c b f, Instr.compose ≠ .bringup n c b f :=
  ⟨rfl, by simp, by simp, by simp⟩

theorem witness_ComposeBuildsThePaddedFrame :
    slotWritten.lock = .held slotWritten.agent ∧ slotWritten.phase slotWritten.agent = .held ∧
    (slotWritten.request slotWritten.agent).slotDone = true ∧
    ∀ a < slotWritten.bufLength, Memory.read slotWritten.buf a ≠ none := by decide

theorem witness_XmitHandsTheFrameOverOnce :
    composed.lock = .held composed.agent ∧ composed.phase composed.agent = .held ∧
    (composed.request composed.agent).frame = some redFrame ∧ composed.tx = some .ok ∧
    ({ composed with tx := none } : State).tx = none := by decide

theorem witness_XmitInSendTakesTheAnswer :
    sending.lock = .held sending.agent ∧ sending.phase sending.agent = .send ∧
    (sending.request sending.agent).frame = some redFrame ∧ sending.tx = some .ok ∧
    ({ sending with tx := none } : State).tx = none := by decide

theorem witness_LockIsTakenByAnyWaiterWhenFree :
    waiting.phase waiting.agent = .wait ∧ (waiting.request waiting.agent).req = some redAtOne ∧ waiting.lock = .free ∧
    ({ waiting with lock := .held 5 } : State).lock = .held 5 := by decide

theorem witness_LockReleaseEndsTheRequest :
    (releasing .ok).lock = .held (releasing .ok).agent ∧ (releasing .ok).phase (releasing .ok).agent = .rel ∧
    ((releasing .ok).request (releasing .ok).agent).status = some .ok := by decide

theorem witness_InvocationLatchesTheOperands :
    let s := bench.withAgenda [turn0 (.invoke 1 1 2 3)]
    s.agenda = turn0 (.invoke 1 1 2 3) :: [] ∧ s.up = true ∧ s.phase 0 = .idle ∧ s.endpoints[1]? = some ⟨1⟩ := by decide

theorem witness_FrameCheckIsDecidedBeforeTheLock :
    (checking.withAgenda [turn0 .advance]).agenda = turn0 .advance :: [] ∧ checking.phase 0 = .check ∧
    (turn0 .advance).alloc = .ok ∧ ({ turn0 .advance with alloc := .fail } : Turn).alloc = .fail := by decide

theorem witness_TransportAnswerSetsTheStatus :
    (sending.withAgenda [turn0 .advance]).agenda = turn0 .advance :: [] ∧ sending.lock = .held 0 ∧
    sending.phase 0 = .send ∧ (sending.request 0).frame = some redFrame ∧ (turn0 .advance).tx = some .ok := by decide

theorem witness_BringupCreatesBufferAndEndpoints : State.reset.up = false ∧ 1 ≠ 0 := by decide

theorem witness_ConfigurationMismatchCreatesNothing :
    State.reset.up = false ∧ (1 ≠ 2 ∧ 3 ≠ 2) ∧ 0 = 0 ∧ 4 ≠ 3 ∧ 12 ≠ 9 := by decide

theorem witness_BringupOfABlockThatIsUpIsNoStep : bench.up = true := by decide

theorem witness_ResetEventNeedsAQuietBlock_quiet :
    (bench.withAgenda [turn0 .reset]).agenda = turn0 .reset :: [] ∧
    (∀ q, (bench.phase q).inProgress = false) ∧ Requests.wf bench.reqs = true :=
  ⟨rfl, fun _ => rfl, rfl⟩

theorem witness_ResetEventNeedsAQuietBlock_busy :
    (held.withAgenda [turn0 .reset]).agenda = turn0 .reset :: [] ∧ ∃ q, (held.phase q).inProgress = true :=
  ⟨rfl, 0, rfl⟩

theorem witness_BlockWithoutTurnsStands : State.reset.agenda = [] := by decide

theorem witness_ResponseDeterminesTheStatus :
    Status.code (.transmissionFailure ⟨7⟩) = Status.code (.transmissionFailure ⟨7⟩) ∧
    Status.failureValue (.transmissionFailure ⟨7⟩) = Status.failureValue (.transmissionFailure ⟨7⟩) := by decide

theorem witness_ChainsAreIndependent :
    [State.reset, bench.withAgenda []][1]? = some (bench.withAgenda []) ∧
    step (bench.withAgenda []) = .next (bench.withAgenda []) ∧
    stepChain 1 [State.reset, bench.withAgenda []] = .next [State.reset, bench.withAgenda []] := ⟨rfl, rfl, rfl⟩

theorem witness_WireIsNeverRead : exec .xmit { composed with wire := [] } = .next (after (exec .xmit composed)) := rfl

/-! ### Witnesses: states of the invariant

They are reached from a block that is down, by operations that keep the invariant. -/

/-- A block of `n` positions right after bring-up. -/
def fresh (n : Nat) : State := comeUp ⟨n, Config.channels, Config.slotBytes⟩ State.reset

theorem fresh_inv {n : Nat} (hn : 0 < n) : (fresh n).Inv :=
  (State.Inv.of_nothing rfl rfl rfl rfl rfl rfl rfl rfl).comeUp rfl hn

/-- Request 0 for position 1 in CHECK, in WAIT, in HELD and in SEND. -/
def inCheck : State := (fresh 2).setRequest 0 ⟨.check, some ⟨1, 0xFF, 0, 0⟩, none, false, none, none⟩
def inWait : State := checkFrame inCheck 0
def inHeld : State := acquire inWait 0
def inSend : State := after (work inHeld 0)

theorem inCheck_inv : inCheck.Inv :=
  (fresh_inv (n := 2) (by decide)).invoke (q := 0) (led := 1) (ch0 := 0xFF) (ch1 := 0) (ch2 := 0) rfl
theorem inWait_inv : inWait.Inv := inCheck_inv.checkFrame 0
theorem inHeld_inv : inHeld.Inv := inWait_inv.acquire 0
theorem inSend_inv : inSend.Inv := inHeld_inv.work (q := 0) rfl

/-- Request 1 for position 0 waits beside them. -/
def second (s : State) : State := checkFrame ((invoke s 1 0 0 0xFF 0).getD s) 1

theorem second_wait_inv : (second inWait).Inv :=
  (inWait_inv.invoke (q := 1) (led := 0) (ch0 := 0) (ch1 := 0xFF) (ch2 := 0) rfl).checkFrame 1
theorem second_send_inv : (second inSend).Inv :=
  (inSend_inv.invoke (q := 1) (led := 0) (ch0 := 0) (ch1 := 0xFF) (ch2 := 0) rfl).checkFrame 1

/-- A block of one position after one whole `UPDATE`. -/
def updating : State :=
  after (work (acquire (checkFrame ((fresh 1).setRequest 0
    ⟨.check, some ⟨0, 0xFF, 0, 0⟩, none, false, none, none⟩) 0) 0) 0)
def updated : State := release (takeAnswer { updating with tx := some .ok } 0) 0

theorem updating_inv : updating.Inv := by
  have h1 := (fresh_inv (n := 1) (by decide)).invoke (q := 0) (led := 0) (ch0 := 0xFF) (ch1 := 0) (ch2 := 0) rfl
  exact ((h1.checkFrame 0).acquire 0).work (q := 0) rfl
theorem updated_inv : updated.Inv := by
  exact ((State.Inv.of_block (t := { updating with tx := some .ok }) updating_inv rfl).takeAnswer 0).release 0

/-- The reader's own slot write is done. -/
theorem witness_BufferReadAnswersTheWholeBuffer_own_slot :
    inSend.Inv ∧ inSend.lock = .held inSend.agent ∧ (inSend.request inSend.agent).req = some ⟨1, 0xFF, 0, 0⟩ ∧
    (inSend.request inSend.agent).slotDone = true ∧ inSend.bufLength = 18 ∧
    ∀ a < inSend.bufLength, Memory.read inSend.buf a ≠ none := by
  refine ⟨inSend_inv, rfl, rfl, rfl, rfl, fun a ha => ?_⟩
  rw [← Option.isSome_iff_ne_none, Memory.read_isSome, inSend_inv.addresses, List.mem_range]
  exact ha

/-- The last slot: not yet written; and a slot that has been written. -/
theorem witness_SlotHoldsTheLatestPixel :
    (fresh 2).Inv ∧ 1 < (fresh 2).chips ∧ (fresh 2).committed = [] ∧
    updated.Inv ∧ 0 < updated.chips ∧ updated.committed = [⟨0, ⟨0, 0xFF, 0, 0⟩⟩] :=
  ⟨fresh_inv (by decide), by decide, rfl, updated_inv, by decide, rfl⟩

theorem witness_WorkUnderTheLock :
    (inHeld.withAgenda [turn0 .advance]).Inv ∧
    (inHeld.withAgenda [turn0 .advance]).agenda = turn0 .advance :: [] ∧ (turn0 .advance).act = .advance ∧
    inHeld.lock = .held 0 ∧ inHeld.phase 0 = .held := ⟨inHeld_inv.of_block rfl, rfl, rfl, rfl, rfl⟩

/-- Each answer of the transport, for the last position. -/
theorem witness_UpdateRunsToItsEnd :
    ∀ r : TransportAnswer, ({ fresh 2 with tx := some r } : State).Inv ∧ (fresh 2).up = true ∧ 1 < (fresh 2).chips ∧
      (fresh 2).phase (fresh 2).agent = .idle ∧ (fresh 2).lock = .free ∧ (fresh 2).alloc = .ok ∧
      exec (.update 1 0xFF 0 0) { fresh 2 with tx := some r } =
        .next (after (exec (.update 1 0xFF 0 0) { fresh 2 with tx := some r })) :=
  fun _ => ⟨(fresh_inv (by decide)).of_block rfl, rfl, by decide, rfl, rfl, rfl, rfl⟩

theorem witness_UpdateEqualsItsOperationsInOrder :
    ({ fresh 2 with tx := some .ok } : State).Inv ∧ (fresh 2).up = true ∧ 1 < (fresh 2).chips ∧
    (fresh 2).phase (fresh 2).agent = .idle ∧ (fresh 2).lock = .free ∧ (fresh 2).alloc = .ok :=
  ⟨(fresh_inv (by decide)).of_block rfl, rfl, by decide, rfl, rfl, rfl⟩

/-- Both answers of the transport. -/
theorem witness_BufferAndLedsCanDisagreeAfterAFailure :
    ∀ r : TransportAnswer, ({ fresh 2 with tx := some r } : State).Inv ∧ (fresh 2).up = true ∧ 1 < (fresh 2).chips ∧
      (fresh 2).phase (fresh 2).agent = .idle ∧ (fresh 2).lock = .free ∧ (fresh 2).alloc = .ok ∧
      exec (.update 1 0xFF 0 0) { fresh 2 with tx := some r } =
        .next (after (exec (.update 1 0xFF 0 0) { fresh 2 with tx := some r })) := witness_UpdateRunsToItsEnd

theorem witness_AllocationFailureChangesNothing :
    ({ fresh 2 with alloc := .fail } : State).Inv ∧ (fresh 2).up = true ∧ 1 < (fresh 2).chips ∧
    (fresh 2).phase (fresh 2).agent = .idle := ⟨(fresh_inv (by decide)).of_block rfl, rfl, by decide, rfl⟩

theorem witness_UpdateWaitsForAHeldLock :
    ({ inHeld with agent := 1 } : State).Inv ∧ inHeld.up = true ∧ 1 < inHeld.chips ∧ inHeld.phase 1 = .idle ∧
    inHeld.alloc = .ok ∧ inHeld.lock = .held 0 := ⟨inHeld_inv.of_block rfl, rfl, by decide, rfl, rfl, rfl⟩

theorem witness_UnansweredUpdateKeepsTheLock :
    (fresh 2).Inv ∧ (fresh 2).up = true ∧ 0 < (fresh 2).chips ∧ (fresh 2).phase (fresh 2).agent = .idle ∧
    (fresh 2).lock = .free ∧ (fresh 2).alloc = .ok ∧ (fresh 2).tx = none :=
  ⟨fresh_inv (by decide), rfl, by decide, rfl, rfl, rfl, rfl⟩

theorem witness_RequestWithoutEndpointIsDropped :
    (fresh 2).Inv ∧ (fresh 2).chips ≤ 2 ∧ inCheck.Inv ∧ inCheck.phase inCheck.agent ≠ .idle :=
  ⟨fresh_inv (by decide), by decide, inCheck_inv, by decide⟩

theorem witness_UpdateEqualsItsSmallSteps : (fresh 2).Inv ∧ (fresh 2).phase (fresh 2).agent = .idle :=
  ⟨fresh_inv (by decide), rfl⟩

theorem witness_LockOrderDoesNotChangeTheFinalBuffer :
    ({ second inWait with tx := some .ok } : State).Inv ∧ (second inWait).lock = .free ∧ 0 ≠ 1 ∧
    (second inWait).phase 0 = .wait ∧ (second inWait).phase 1 = .wait ∧
    ((second inWait).request 0).req = some ⟨1, 0xFF, 0, 0⟩ ∧ ((second inWait).request 1).req = some ⟨0, 0, 0xFF, 0⟩ ∧
    1 ≠ 0 := ⟨second_wait_inv.of_block rfl, rfl, by decide, rfl, rfl, rfl, rfl, by decide⟩

theorem witness_ServedRequestEnds :
    ({ inWait with tx := some (.fail ⟨7⟩) } : State).Inv ∧ inWait.lock = .free ∧ inWait.phase 0 = .wait :=
  ⟨inWait_inv.of_block rfl, rfl, rfl⟩

theorem witness_EveryStepKeepsTheInvariant :
    (inHeld.withAgenda [turn0 .advance]).Inv ∧
    step (inHeld.withAgenda [turn0 .advance]) = .next (after (step (inHeld.withAgenda [turn0 .advance]))) :=
  ⟨inHeld_inv.of_block rfl, rfl⟩

theorem witness_TopologyIsImmutableWhileUp :
    (inHeld.withAgenda [turn0 .advance]).agenda = turn0 .advance :: [] ∧ (turn0 .advance).act ≠ .reset ∧
    inHeld.up = true ∧
    step (inHeld.withAgenda [turn0 .advance]) = .next (after (step (inHeld.withAgenda [turn0 .advance]))) :=
  ⟨rfl, by decide, rfl, rfl⟩

theorem witness_PhasesOnlyAdvance :
    (inWait.withAgenda [turn0 .advance]).agenda = turn0 .advance :: [] ∧ (turn0 .advance).act ≠ .reset ∧
    step (inWait.withAgenda [turn0 .advance]) = .next (after (step (inWait.withAgenda [turn0 .advance]))) :=
  ⟨rfl, by decide, rfl⟩

/-- A step in which the transport answers. -/
theorem witness_WireGrowsByOneWholeFrame :
    (inSend.withAgenda [turn0 .advance]).Inv ∧
    (inSend.withAgenda [turn0 .advance]).agenda = turn0 .advance :: [] ∧ (turn0 .advance).act ≠ .reset ∧
    inSend.up = true ∧
    step (inSend.withAgenda [turn0 .advance]) = .next (after (step (inSend.withAgenda [turn0 .advance]))) ∧
    (after (step (inSend.withAgenda [turn0 .advance]))).wire ≠ [] :=
  ⟨inSend_inv.of_block rfl, rfl, by decide, rfl, rfl, by
    rw [show (after (step (inSend.withAgenda [turn0 .advance]))).wire =
      [] ++ [⟨0, ((inSend.request 0).frame.getD []), .ok⟩] from rfl]
    simp⟩

theorem witness_NoStepAddressesOutsideTheBuffer : (inHeld.withAgenda [turn0 .advance]).Inv := inHeld_inv.of_block rfl

theorem witness_NoRequestEndsHoldingTheLock :
    updated.Inv ∧ updated.phase 0 = .done ∧ updated.runEnded := by
  refine ⟨updated_inv, rfl, fun q hq => ?_⟩
  by_cases h : q = 0
  · subst h; rfl
  · exact absurd (show updated.phase q = .idle by
      simp [State.phase, State.request, show updated.reqs =
        [(0, ⟨.done, none, none, false, none, some .ok⟩)] from rfl, Requests.get, Ne.symm h, Request.idle]) hq

theorem second_send_blocked (ts : List Turn) : ((second inSend).withAgenda ts).requestsBlocked := by
  refine ⟨⟨0, .inr rfl⟩, fun q => ?_⟩
  match q with
  | 0 => rfl
  | 1 => rfl
  | n + 2 =>
    have hreqs : ((second inSend).withAgenda ts).reqs =
        [(0, inSend.request 0), (1, ⟨.wait, some ⟨0, 0, 0xFF, 0⟩, none, false, none, none⟩)] := rfl
    have hph : ((second inSend).withAgenda ts).phase (n + 2) = .idle := by
      simp only [State.phase, State.request, hreqs, Requests.get]
      rw [if_neg (by omega), if_neg (by omega)]
      rfl
    simp only [State.canMoveInSilence, hph]

/-- Request 0 waits for a silent transport, request 1 for the lock. -/
theorem witness_HangIsAnUnansweredWrite :
    ((second inSend).withAgenda [⟨1, .ok, none, .advance⟩]).Inv ∧
    ((second inSend).withAgenda [⟨1, .ok, none, .advance⟩]).Hung ∧
    ((second inSend).withAgenda [⟨1, .ok, none, .advance⟩]).agenda = ⟨1, .ok, none, .advance⟩ :: [] := by
  refine ⟨second_send_inv.of_block rfl, ⟨(second_send_blocked _), fun x hx _ => ?_⟩, rfl⟩
  rw [show x = ⟨1, .ok, none, .advance⟩ by simpa [State.withAgenda] using hx]

/-- The same, where the transport answers request 0 in the next turn. -/
theorem witness_HangIsAnUnansweredWrite_answered :
    ((second inSend).withAgenda [turn0 .advance]).Inv ∧ ((second inSend).withAgenda [turn0 .advance]).requestsBlocked ∧
    ((second inSend).withAgenda [turn0 .advance]).agenda = turn0 .advance :: [] ∧ (turn0 .advance).tx = some .ok ∧
    ((second inSend).withAgenda [turn0 .advance]).phase (turn0 .advance).agent = .send :=
  ⟨second_send_inv.of_block rfl, second_send_blocked _, rfl, rfl, rfl⟩

theorem witness_FramesAreValidOnceEverySlotIsWritten :
    updated.Inv ∧ updating.Inv ∧ (updating.request 0).frame ≠ none ∧
    (∀ i < updating.chips, ∃ c ∈ updating.committed, c.req.led = i) ∧
    ∀ i < updated.chips, ∃ c ∈ updated.committed, c.req.led = i := by
  have key : ∀ i < 1, ∃ c ∈ [(⟨0, ⟨0, 0xFF, 0, 0⟩⟩ : CriticalSection)], c.req.led = i := by decide
  exact ⟨updated_inv, updating_inv, Option.isSome_iff_ne_none.mp rfl, key, key⟩

end Sys2Proof.Tests
end

section
/-! Proofs about the channel encoder and its inverse (40_encoder.md R73 to R75). Each table's bit template gives the bit
stream of `encodeChannel v`; the inverse is then characterised once, by that stream, and the round-trip law follows. -/

namespace Sys2Proof.Machine

/-! ### The bit templates of the tables (30_encoding.md R54) -/

theorem byteBits_lutH (k : Key3) :
    byteBits (lutH k) = [true, k.getLsbD 2, false, true, k.getLsbD 1, false, true, k.getLsbD 0] := by
  revert k; decide

theorem byteBits_lutM (k : Key2) :
    byteBits (lutM k) = [false, true, k.getLsbD 1, false, true, k.getLsbD 0, false, true] := by
  revert k; decide

theorem byteBits_lutL (k : Key3) :
    byteBits (lutL k) = [k.getLsbD 2, false, true, k.getLsbD 1, false, true, k.getLsbD 0, false] := by
  revert k; decide

/-! ### The bits of the keys (30_encoding.md R53) -/

theorem keyH_getLsbD (v : Byte) {i : Nat} (hi : i < 3) : (keyH v).getLsbD i = v.getLsbD (5 + i) := by
  simp [keyH, hi]

theorem keyM_getLsbD (v : Byte) {i : Nat} (hi : i < 2) : (keyM v).getLsbD i = v.getLsbD (3 + i) := by
  interval_cases i <;> simp [keyM]

theorem keyL_getLsbD (v : Byte) {i : Nat} (hi : i < 3) : (keyL v).getLsbD i = v.getLsbD i := by
  interval_cases i <;> simp [keyL]

/-! ### The stream of an encoded channel -/

theorem EncodedChannel.streamOf_bytes (e : EncodedChannel) :
    streamOf e.bytes = byteBits e.b0 ++ (byteBits e.b1 ++ byteBits e.b2) := by
  simp [streamOf, EncodedChannel.bytes]

/-- `Bytes(v)` carries `Stream(v)` (40_encoder.md R73, R74). -/
theorem streamOf_encodeChannel (v : Byte) : streamOf (encodeChannel v).bytes = channelStream v := by
  simp only [EncodedChannel.streamOf_bytes, encodeChannel, byteBits_lutH, byteBits_lutM, byteBits_lutL, keyH_getLsbD,
    keyM_getLsbD, keyL_getLsbD, Nat.reduceLT, Nat.reduceAdd]
  rfl

theorem exec_encCh (v : Byte) (s : State) :
    exec (.encCh v) s = .next (s.answers (.bytes (encodeChannel v).bytes)) := rfl

/-- Settles O10: the answer is `encodeChannel v`, whose stream is `channelStream v`. -/
theorem channelEncoderMeetsTheBitContract : Obligations.ChannelEncoderMeetsTheBitContract := by
  intro v s
  refine ⟨(encodeChannel v).bytes, exec_encCh v s, rfl, rfl, ?_⟩
  rw [streamOf_encodeChannel]
  rfl

/-! ### Bits determine bytes -/

theorem byteBits_injective : Function.Injective byteBits := by
  intro a b h
  simp only [byteBits, List.cons.injEq, and_true] at h
  obtain ⟨h7, h6, h5, h4, h3, h2, h1, h0⟩ := h
  refine BitVec.eq_of_getLsbD_eq fun i hi => ?_
  interval_cases i <;> assumption

theorem EncodedChannel.eq_of_streamOf_eq {e e' : EncodedChannel} (h : streamOf e.bytes = streamOf e'.bytes) :
    e = e' := by
  simp only [EncodedChannel.streamOf_bytes] at h
  obtain ⟨h0, h12⟩ := List.append_inj h rfl
  obtain ⟨h1, h2⟩ := List.append_inj h12 rfl
  exact (EncodedChannel.mk.injEq ..).mpr ⟨byteBits_injective h0, byteBits_injective h1, byteBits_injective h2⟩

/-- Each bit read by `byteOfBits` becomes bit 0 and moves the earlier ones up by one. -/
theorem byteBits_byteOfBits {bs : List Bool} (h : bs.length = 8) : byteBits (byteOfBits bs) = bs := by
  match bs, h with
  | [d7, d6, d5, d4, d3, d2, d1, d0], _ =>
    simp only [byteOfBits, byteBits, List.foldl_cons, List.foldl_nil, ← Nat.bit_val, BitVec.getLsbD_ofNat,
      Nat.testBit_bit_zero, Nat.testBit_bit_succ, Nat.reduceLT, decide_true, Bool.true_and]

theorem byteOfBits_byteBits (v : Byte) : byteOfBits (byteBits v) = v :=
  byteBits_injective (byteBits_byteOfBits rfl)

/-! ### The inverse (40_encoder.md R75) -/

theorem decodeSymbol_eq_some_iff {g : List Bool} {d : Bool} : decodeSymbol g = some d ↔ g = symbolBits d := by
  constructor
  · intro h
    unfold decodeSymbol at h
    split at h
    · cases h; rfl
    · cases h; rfl
    · cases h
  · rintro rfl
    cases d <;> rfl

theorem mapM_decodeSymbol_eq_some_iff {gs : List (List Bool)} {bs : List Bool} :
    gs.mapM decodeSymbol = some bs ↔ gs = bs.map symbolBits := by
  induction gs generalizing bs with
  | nil => cases bs <;> simp
  | cons g gs ih =>
    cases bs <;> simp [List.mapM_cons, Option.bind_eq_some_iff, ih, decodeSymbol_eq_some_iff]

theorem groupsOfThree_flatMap_symbolBits (bs : List Bool) :
    groupsOfThree (bs.flatMap symbolBits) = bs.map symbolBits := by
  induction bs with
  | nil => rfl
  | cons d bs ih => exact congrArg (symbolBits d :: ·) ih

theorem flatten_groupsOfThree : ∀ {st : List Bool}, 3 ∣ st.length → (groupsOfThree st).flatten = st
  | [], _ => rfl
  | [_], h => by simp at h
  | [_, _], h => by simp at h
  | x :: y :: z :: rest, h => by
    have ih := flatten_groupsOfThree (st := rest) (by simpa using h)
    rw [groupsOfThree, List.flatten_cons, ih]
    rfl

theorem groupsOfThree_eq_map_symbolBits_iff {st bs : List Bool} (h : 3 ∣ st.length) :
    groupsOfThree st = bs.map symbolBits ↔ st = bs.flatMap symbolBits := by
  constructor
  · intro hg
    rw [← flatten_groupsOfThree h, hg, List.flatMap_def]
  · rintro rfl
    exact groupsOfThree_flatMap_symbolBits bs

theorem length_flatMap_symbolBits (bs : List Bool) : (bs.flatMap symbolBits).length = 3 * bs.length := by
  simp [List.length_flatMap, symbolBits, Nat.mul_comm]

/-- `DEC_CH` answers `v` on the three bytes that carry `Stream(v)`, and on no others. -/
theorem decodeChannel_eq_some_iff {e : EncodedChannel} {v : Byte} :
    decodeChannel e = some v ↔ streamOf e.bytes = channelStream v := by
  have hlen : (streamOf e.bytes).length = 24 := rfl
  have hdvd : 3 ∣ (streamOf e.bytes).length := ⟨8, hlen⟩
  simp only [decodeChannel, Option.map_eq_some_iff, mapM_decodeSymbol_eq_some_iff,
    groupsOfThree_eq_map_symbolBits_iff hdvd]
  constructor
  · rintro ⟨bs, hst, rfl⟩
    have hbs : bs.length = 8 := by
      have h24 : 24 = 3 * bs.length := by rw [← length_flatMap_symbolBits, ← hst, hlen]
      omega
    rw [channelStream, byteBits_byteOfBits hbs, hst]
  · intro hst
    exact ⟨byteBits v, hst, byteOfBits_byteBits v⟩

theorem decodeChannel_encodeChannel (v : Byte) : decodeChannel (encodeChannel v) = some v :=
  decodeChannel_eq_some_iff.mpr (streamOf_encodeChannel v)

theorem encodeChannel_injective : Function.Injective encodeChannel :=
  fun v v' h => Option.some.inj (by rw [← decodeChannel_encodeChannel v, h, decodeChannel_encodeChannel])

theorem eq_encodeChannel_of_decodeChannel {e : EncodedChannel} {v : Byte} (h : decodeChannel e = some v) :
    e = encodeChannel v :=
  EncodedChannel.eq_of_streamOf_eq ((decodeChannel_eq_some_iff.mp h).trans (streamOf_encodeChannel v).symm)

/-- Settles O12: `DEC_CH` answers `v` exactly on the stream of `v`, and a stream determines its three bytes. -/
theorem roundTripLaw : Obligations.RoundTripLaw :=
  ⟨decodeChannel_encodeChannel, fun _ _ h => encodeChannel_injective h, fun _ _ => eq_encodeChannel_of_decodeChannel⟩

end Sys2Proof.Machine
end

section
/-! Proofs about `SLOT_WR` (41_buffer.md R91, R94). What a slot write leaves in the buffer is stated once for any buffer
that a `MemWrite` of a pixel produces; an enabled `SLOT_WR` is that write, and it succeeds when its slot exists. -/

namespace Sys2Proof.Machine

@[simp] theorem EncodedPixel.length_bytes (p : EncodedPixel) : p.bytes.length = 9 := rfl

theorem slotAddress_eq (i : Nat) : slotAddress i = 9 * i := rfl

/-! ### The buffer after a slot write -/

theorem Memory.writeBytes_slot_isSome {m : Memory} {i : Nat} (p : EncodedPixel)
    (hslot : ∀ j < 9, m.read (9 * i + j) ≠ none) : ∃ m', m.writeBytes (slotAddress i) p.bytes = some m' := by
  refine Memory.writeBytes_isSome _ _ _ fun j hj => ?_
  rw [EncodedPixel.length_bytes] at hj
  exact (Memory.read_isSome m _).mp (Option.isSome_iff_ne_none.mpr (hslot j hj))

section
variable {m m' : Memory} {i : Nat} {p : EncodedPixel} (h : m.writeBytes (slotAddress i) p.bytes = some m')
include h

theorem Memory.read_in_written_slot {j : Nat} (hj : j < 9) : m'.read (9 * i + j) = p.bytes[j]? := by
  obtain ⟨hread, -⟩ := Memory.writeBytes_spec _ h
  rw [hread, slotAddress_eq, EncodedPixel.length_bytes, if_pos (by omega), Nat.add_sub_cancel_left]

theorem Memory.read_outside_written_slot {a : Nat} (ha : a < 9 * i ∨ 9 * i + 9 ≤ a) : m'.read a = m.read a := by
  obtain ⟨hread, -⟩ := Memory.writeBytes_spec _ h
  rw [hread, slotAddress_eq, EncodedPixel.length_bytes, if_neg (by omega)]

end

/-! ### The operation -/

theorem exec_slotWr_of_enabled {s : State} {l : ReqLatch} {p : EncodedPixel} {m : Memory}
    (h : s.holdsIn s.agent .held) (hreq : (s.request s.agent).req = some l) (hpx : (s.request s.agent).px = some p)
    (hm : Memory.writeBytes s.buf (slotAddress l.led) p.bytes = some m) :
    exec .slotWr s = .next
      (((s.setRequest s.agent { s.request s.agent with slotDone := true }).setBuf m).answers .done) := by
  have hcan : s.canWriteSlot s.agent := ⟨h, by simp [hreq], by simp [hpx]⟩
  change execSlotWr s = _
  rw [execSlotWr, if_pos hcan, writeSlot_of_enabled h hreq hpx hm]
  rfl

/-- Settles O16: the slot exists, so the write of the pixel at `9 * led` succeeds, and reads after it are those of
`MemWrite`. -/
theorem slotWriteStoresThePixelInItsSlot : Obligations.SlotWriteStoresThePixelInItsSlot := by
  intro s l p hlock hphase hreq hpx hslot
  obtain ⟨m, hm⟩ := Memory.writeBytes_slot_isSome p hslot
  exact ⟨_, exec_slotWr_of_enabled ⟨hlock, hphase⟩ hreq hpx hm, fun _ hj => Memory.read_in_written_slot hm hj,
    fun _ ha => Memory.read_outside_written_slot hm ha, rfl⟩

end Sys2Proof.Machine
end

section
/-! Proofs about `COMPOSE` (42_composer.md R100). What the padded frame holds is stated once for any bytes; when every
address of the buffer exists, an enabled `COMPOSE` answers the padded frame of the whole buffer. -/

namespace Sys2Proof.Machine

/-! ### The padded frame -/

section
variable (bs : List Byte)

@[simp] theorem length_padFrame : (padFrame bs).length = bs.length + 2 := by simp [padFrame]

theorem padFrame_getElem?_zero : (padFrame bs)[0]? = some 0x00#8 := rfl

theorem padFrame_getElem?_inner {a : Nat} (ha : a < bs.length) : (padFrame bs)[1 + a]? = bs[a]? := by
  rw [padFrame, Nat.add_comm, List.getElem?_cons_succ, List.getElem?_append_left ha]

theorem padFrame_getElem?_last : (padFrame bs)[bs.length + 1]? = some 0x00#8 := by
  rw [padFrame, List.getElem?_cons_succ, List.getElem?_concat_length]

end

/-! ### The operation -/

theorem State.wholeBuffer_isSome {s : State} (h : ∀ a < s.bufLength, Memory.read s.buf a ≠ none) :
    ∃ bs, s.wholeBuffer = some bs := by
  refine Memory.readBytes_isSome _ _ _ fun a ha => ?_
  rw [Nat.zero_add]
  exact (Memory.read_isSome s.buf a).mp (Option.isSome_iff_ne_none.mpr (h a ha))

theorem State.wholeBuffer_spec {s : State} {bs : List Byte} (h : s.wholeBuffer = some bs) :
    bs.length = s.bufLength ∧ ∀ a < s.bufLength, bs[a]? = Memory.read s.buf a := by
  simpa only [Nat.zero_add] using Memory.readBytes_spec _ h

theorem exec_compose_of_enabled {s : State} {bs : List Byte} (h : s.canCompose s.agent)
    (hb : s.wholeBuffer = some bs) :
    exec .compose s = .next
      ((s.setRequest s.agent { s.request s.agent with frame := some (padFrame bs) }).answers
        (.bytes (padFrame bs))) := by
  change execCompose s = _
  rw [execCompose, if_pos h, composeFrame_of_enabled h hb]
  simp [andThen]

/-- Settles O21: every address exists, so the whole-buffer read answers `L` bytes in address order, and the frame is
those bytes between two pads. -/
theorem composeBuildsThePaddedFrame : Obligations.ComposeBuildsThePaddedFrame := by
  intro s hlock hphase hslot haddr
  obtain ⟨bs, hb⟩ := State.wholeBuffer_isSome haddr
  obtain ⟨hlen, hread⟩ := State.wholeBuffer_spec hb
  refine ⟨padFrame bs, exec_compose_of_enabled ⟨⟨hlock, hphase⟩, hslot⟩ hb, ?_, padFrame_getElem?_zero bs, ?_, ?_⟩
  · rw [length_padFrame, hlen]
  · intro a ha
    rw [padFrame_getElem?_inner bs (hlen ▸ ha), hread a ha]
  · rw [← hlen, padFrame_getElem?_last]

end Sys2Proof.Machine
end

section
/-! Proofs about the Update Coordinator (43_update.md R112 to R114, R116): `LOCK_ACQ` and `LOCK_REL` as operations,
and the small steps from CHECK and from SEND as turns. What a request reports in a phase and what a turn of a small step
does are stated once; each result is then the lemma of the small step with its report. -/

namespace Sys2Proof.Machine

variable {s : State} {q : Nat}

/-! ### What a request reports -/

theorem State.report_of_wait (h : s.phase q = .wait) : s.report q = .waiting := by
  simp only [State.report, h]

theorem State.report_of_rel (h : s.phase q = .rel) : s.report q = .done := by
  simp only [State.report, h]

theorem State.report_of_done {st : Status} (h : s.phase q = .done) (hst : (s.request q).status = some st) :
    s.report q = .status st := by
  simp only [State.report, h, hst]

@[simp] theorem State.request_endRequest_self (s : State) (q : Nat) (st : Option Status) :
    (s.endRequest q st).request q = { Request.idle with phase := .done, status := st } :=
  State.request_setRequest_self ..

@[simp] theorem State.phase_endRequest_self (s : State) (q : Nat) (st : Option Status) :
    (s.endRequest q st).phase q = .done := by
  rw [State.phase, State.request_endRequest_self]

@[simp] theorem State.phase_setRequest_self (s : State) (q : Nat) (r : Request) :
    (s.setRequest q r).phase q = r.phase := by
  rw [State.phase, State.request_setRequest_self]

/-! ### The lock operations (43_update.md R112, R113) -/

theorem exec_lockAcq_of_enabled (h : s.canAcquire s.agent) :
    exec .lockAcq s = .next ((acquire s s.agent).answers .done) :=
  if_pos h

theorem exec_lockAcq_of_waiting (hp : s.phase s.agent = .wait) (hl : s.lock ≠ .free) :
    exec .lockAcq s = .next (s.answers .waiting) := by
  have hno : ¬ s.canAcquire s.agent := fun h => hl h.1
  change execLockAcq s = _
  rw [execLockAcq, if_neg hno, if_pos hp]

theorem exec_lockRel_of_holder {st : Status} (h : s.holdsIn s.agent .rel)
    (hst : (s.request s.agent).status = some st) :
    exec .lockRel s = .next (((s.endRequest s.agent (some st)).setLock .free).answers (.status st)) := by
  have hreport : ((s.endRequest s.agent (some st)).setLock .free).report s.agent = .status st :=
    State.report_of_done (by simp) (by simp)
  change execLockRel s = _
  rw [execLockRel, if_pos h, release_of_holder h, hst, State.reporting_eq, hreport]

/-- Settles O25: with the lock free `LOCK_ACQ` is enabled and its critical section carries the operands; with the lock
held it is not, and the request goes on waiting. -/
theorem lockIsTakenByAnyWaiterWhenFree : Obligations.LockIsTakenByAnyWaiterWhenFree := by
  intro s l hp hreq
  constructor
  · intro hfree
    rw [exec_lockAcq_of_enabled ⟨hfree, hp⟩, acquire_of_enabled ⟨hfree, hp⟩, hreq]
    rfl
  · intro p hheld
    exact exec_lockAcq_of_waiting hp (by simp [hheld])

/-- Settles O26: `LOCK_REL` ends the holder's request with the status it has, and reads no transport answer. -/
theorem lockReleaseEndsTheRequest : Obligations.LockReleaseEndsTheRequest :=
  fun _ _ hlock hp hst => exec_lockRel_of_holder ⟨hlock, hp⟩ hst

/-! ### A turn of a small step -/

theorem step_of_advance {t : Turn} {rest : List Turn} (ha : s.agenda = t :: rest) (hact : t.act = .advance) :
    step s = advance (s.beginTurn t rest) t.agent := by
  simp only [step, ha, act, hact, State.beginTurn_agent]

theorem advance_of_check (h : s.phase q = .check) : advance s q = .next ((checkFrame s q).reporting q) := by
  simp only [advance, h]

theorem advance_of_send (h : s.phase q = .send) : advance s q = .next ((takeAnswer s q).reporting q) := by
  simp only [advance, h]

/-! ### The frame resource check (43_update.md R114) -/

theorem advance_of_check_ok (hp : s.phase q = .check) (ha : s.alloc = .ok) :
    advance s q = .next ((s.setRequest q { s.request q with phase := .wait }).answers .waiting) := by
  rw [advance_of_check hp, checkFrame_of_ok hp ha, State.reporting_eq, State.report_of_wait (by simp)]

theorem advance_of_check_fail (hp : s.phase q = .check) (ha : s.alloc = .fail) :
    advance s q =
      .next ((s.endRequest q (some .allocationFailure)).answers (.status .allocationFailure)) := by
  have hreport : (s.endRequest q (some .allocationFailure)).report q = .status .allocationFailure :=
    State.report_of_done (by simp) (by simp)
  rw [advance_of_check hp, checkFrame_of_fail hp ha, State.reporting_eq, hreport]

/-- Settles O28: the turn's answer alone decides between WAIT and the end with AllocationFailure. -/
theorem frameCheckIsDecidedBeforeTheLock : Obligations.FrameCheckIsDecidedBeforeTheLock := by
  intro s t rest hagenda hact hp
  rw [step_of_advance hagenda hact]
  exact ⟨advance_of_check_ok (s := s.beginTurn t rest) hp, advance_of_check_fail (s := s.beginTurn t rest) hp⟩

/-! ### The transport's answer (43_update.md R116) -/

theorem advance_of_send_answer {r : TransportAnswer} {f : List Byte} (h : s.holdsIn q .send) (ht : s.tx = some r)
    (hf : (s.request q).frame = some f) :
    advance s q = .next
      (((s.setRequest q { s.request q with phase := .rel, status := some r.toStatus }).appendWire
        ⟨q, f, r⟩).answers .done) := by
  rw [advance_of_send h.2, takeAnswer_of_answer h ht hf, State.reporting_eq, State.report_of_rel (by simp)]

/-- Settles O30: the holder in SEND takes the turn's answer, and the status it sets is `toStatus` of that answer. -/
theorem transportAnswerSetsTheStatus : Obligations.TransportAnswerSetsTheStatus := by
  intro s t rest f r hagenda hact hlock hp hf ht
  rw [step_of_advance hagenda hact]
  exact advance_of_send_answer (s := s.beginTurn t rest) ⟨hlock, hp⟩ ht hf

end Sys2Proof.Machine
end

section
/-! Proofs about the encoding of operations (30_encoding.md sections 3, 5 and 7): the request word as a mixed-radix
number gives both directions of the round trip; the step that presents a message follows its decoding. -/

namespace Sys2Proof.Machine

variable {p : Port} {w led : Nat} {i : Instr}

/-! ### The request word as a number (30_encoding.md R55) -/

theorem byteOf_toNat (k w : Nat) : (byteOf k w).toNat = w / 256 ^ k % 256 := by
  simp [byteOf]

theorem requestWord_eq (led : Nat) (ch0 ch1 ch2 : Byte) :
    requestWord led ch0 ch1 ch2 = led * 2 ^ 24 + ch0.toNat * 2 ^ 16 + ch1.toNat * 2 ^ 8 + ch2.toNat := by
  simp only [requestWord, pixelWord]
  omega

theorem pixelWord_eq_requestWord (ch0 ch1 ch2 : Byte) : pixelWord ch0 ch1 ch2 = requestWord 0 ch0 ch1 ch2 := by
  simp [requestWord]

/-- The four fields of a request word are read back from it. -/
theorem fields_requestWord (led : Nat) (ch0 ch1 ch2 : Byte) :
    requestWord led ch0 ch1 ch2 / 256 ^ 3 = led ∧ byteOf 2 (requestWord led ch0 ch1 ch2) = ch0 ∧
      byteOf 1 (requestWord led ch0 ch1 ch2) = ch1 ∧ byteOf 0 (requestWord led ch0 ch1 ch2) = ch2 := by
  have h0 := ch0.isLt
  have h1 := ch1.isLt
  have h2 := ch2.isLt
  rw [requestWord_eq]
  refine ⟨by omega, ?_, ?_, ?_⟩ <;> refine BitVec.eq_of_toNat_eq ?_ <;> rw [byteOf_toNat] <;> omega

/-- And a number is the request word of its four fields. -/
theorem requestWord_fields (w : Nat) : requestWord (w / 256 ^ 3) (byteOf 2 w) (byteOf 1 w) (byteOf 0 w) = w := by
  simp only [requestWord_eq, byteOf_toNat]
  omega

theorem readWord_request (led : Nat) (ch0 ch1 ch2 : Byte) :
    readWord .request (requestWord led ch0 ch1 ch2) = .update led ch0 ch1 ch2 := by
  obtain ⟨hled, h0, h1, h2⟩ := fields_requestWord led ch0 ch1 ch2
  simp only [readWord, hled, h0, h1, h2]

theorem readWord_pixel (ch0 ch1 ch2 : Byte) : readWord .pixel (pixelWord ch0 ch1 ch2) = .encPx ch0 ch1 ch2 := by
  obtain ⟨-, h0, h1, h2⟩ := fields_requestWord 0 ch0 ch1 ch2
  simp only [readWord, pixelWord_eq_requestWord, h0, h1, h2]

theorem readWord_channel (v : Byte) : readWord .channel v.toNat = .encCh v := by
  simp [readWord, byteOf]

/-! ### Decoding -/

theorem decode_word (h : w < 2 ^ p.width) : decode (.word p w) = .ok (readWord p w) :=
  if_pos h

theorem decode_word_eq_ok_iff : decode (.word p w) = .ok i ↔ w < 2 ^ p.width ∧ readWord p w = i := by
  by_cases h : w < 2 ^ p.width
  · simp [decode_word h, h]
  · simp [decode, h]

/-- A word that reads back as its operation decodes to it: the word of a well-formed operation fits its port. -/
theorem decode_encode_of_word (hwf : i.WellFormed = true) (hfit : Laws.PortFit.Statement i)
    (hread : ∀ p w, encode i = .word p w → readWord p w = i) : decode (encode i) = .ok i := by
  obtain ⟨p, w, henc, hlt⟩ := hfit hwf
  rw [henc, decode_word hlt, hread p w henc]

theorem decode_encode_update (led : Nat) (ch0 ch1 ch2 : Byte) :
    decode (encode (.update led ch0 ch1 ch2)) = .ok (.update led ch0 ch1 ch2) := by
  by_cases h : led < Config.maxWordChips
  · refine decode_encode_of_word (by simpa [Instr.WellFormed, Instr.ledFitsWord, Instr.hasWord] using h)
      (Laws.PortFit.update led ch0 ch1 ch2) fun p w henc => ?_
    simp only [encode, if_pos h, Message.word.injEq] at henc
    obtain ⟨rfl, rfl⟩ := henc
    exact readWord_request led ch0 ch1 ch2
  · simp only [encode, if_neg h, decode]

/-- Settles O1: an operation whose word has operands reads them back; the other words are constants. -/
theorem decodeOfEncodeIsTheOperation : Obligations.DecodeOfEncodeIsTheOperation := by
  intro i
  cases i with
  | update led ch0 ch1 ch2 => exact decode_encode_update led ch0 ch1 ch2
  | encPx ch0 ch1 ch2 =>
    refine decode_encode_of_word rfl (Laws.PortFit.encPx ch0 ch1 ch2) ?_
    rintro _ _ ⟨⟩
    exact readWord_pixel ch0 ch1 ch2
  | encCh v => rw [encode, decode_word v.isLt, readWord_channel]
  | lutH k => rw [encode, decode_word k.isLt]; simp [readWord]
  | lutM k => rw [encode, decode_word k.isLt]; simp [readWord]
  | lutL k => rw [encode, decode_word k.isLt]; simp [readWord]
  | _ => rfl

/-! ### The other direction -/

theorem encode_readWord_symbol (h : w < 2) : encode (readWord .symbol w) = .word .symbol w := by
  interval_cases w <;> rfl

theorem encode_readWord_entryH (h : w < 8) : encode (readWord .entryH w) = .word .entryH w := by
  interval_cases w <;> rfl

theorem encode_readWord_entryM (h : w < 4) : encode (readWord .entryM w) = .word .entryM w := by
  interval_cases w <;> rfl

theorem encode_readWord_entryL (h : w < 8) : encode (readWord .entryL w) = .word .entryL w := by
  interval_cases w <;> rfl

theorem encode_readWord_request (h : w < 2 ^ 32) : encode (readWord .request w) = .word .request w := by
  have hled : w / 256 ^ 3 < Config.maxWordChips := by
    change w / 256 ^ 3 < 256
    omega
  simp only [readWord, encode, if_pos hled, requestWord_fields]

theorem encode_readWord_pixel (h : w < 2 ^ 24) : encode (readWord .pixel w) = .word .pixel w := by
  have hled : w / 256 ^ 3 = 0 := by omega
  have hw := requestWord_fields w
  rw [hled, ← pixelWord_eq_requestWord] at hw
  simp only [readWord, encode, hw]

/-- A word that fits its port is the word of the operation that it reads as. -/
theorem encode_readWord (h : w < 2 ^ p.width) : encode (readWord p w) = .word p w := by
  cases p with
  | symbol => exact encode_readWord_symbol h
  | entryH => exact encode_readWord_entryH h
  | entryM => exact encode_readWord_entryM h
  | entryL => exact encode_readWord_entryL h
  | keyH | keyM | keyL => simpa [readWord, encode, Port.width] using h
  | channel => simpa [readWord, encode, byteOf, Port.width] using h
  | pixel => exact encode_readWord_pixel h
  | request => exact encode_readWord_request h
  | slotWr | bufRd | compose | xmit | lockAcq | lockRel =>
    obtain rfl : w = 0 := Nat.lt_one_iff.mp h
    rfl

/-- Settles O2: what decodes fits its port and is read there, and such a word is encoded again as itself. -/
theorem wordsAtAPortHaveOneMeaning : Obligations.WordsAtAPortHaveOneMeaning := by
  intro p w i h
  obtain ⟨hlt, rfl⟩ := decode_word_eq_ok_iff.mp h
  exact encode_readWord hlt

/-- Settles O3: the sum is the request word of the operands, which is what an `UPDATE` below 256 is encoded as. -/
theorem requestWordFieldsAreRead : Obligations.RequestWordFieldsAreRead := by
  intro led ch0 ch1 ch2 hled
  have henc : encode (.update led ch0 ch1 ch2) = .word .request (requestWord led ch0 ch1 ch2) := if_pos hled
  rw [← requestWord_eq, ← henc, decode_encode_update]

/-- Settles O4: each word is below the bound of its port and reads as its operation. -/
theorem wordsOfTheSpecDecode : Obligations.WordsOfTheSpecDecode :=
  ⟨rfl, rfl, rfl, rfl, rfl, rfl, rfl, rfl⟩

/-! ### Presenting a message -/

variable {s : State} {t : Turn} {rest : List Turn} {m : Message}

theorem step_of_turn (ha : s.agenda = t :: rest) : step s = act t.act (s.beginTurn t rest) := by
  simp only [step, ha]

theorem present_of_decode (h : decode m = .ok i) (s : State) : present m s = exec i s := by
  simp only [present, h]

theorem step_of_present (ha : s.agenda = t :: rest) (hact : t.act = .present m) :
    step s = present m (s.beginTurn t rest) := by
  rw [step_of_turn ha, hact, act]

/-- Settles O5: the decoder names both errors, and a presented message that does not decode is refused. -/
theorem malformedWordsAreRefused : Obligations.MalformedWordsAreRefused := by
  refine ⟨fun p w h => if_neg (Nat.not_lt.mpr h), fun _ _ => rfl, fun s t rest m e ha hact herr => ?_⟩
  rw [step_of_present ha hact]
  simp only [present, herr]

theorem decodeTableWord_eq_some_iff {nbits : Nat} :
    decodeTableWord nbits w = some i ↔ decode (tableMessage nbits w) = .ok i := by
  unfold decodeTableWord
  cases decode (tableMessage nbits w) <;> simp

/-- Settles O6: a presented message that decodes is executed in the state where its turn stands; the turn that places a
bare word presents its table message. -/
theorem stepRunsTheDecodedOperation : Obligations.StepRunsTheDecodedOperation := by
  refine ⟨fun s t rest m i ha hact hdec => ?_, fun s nbits w i hdec => ?_⟩
  · rw [step_of_present ha hact, present_of_decode hdec]
    rfl
  · have hm := decodeTableWord_eq_some_iff.mp hdec
    rw [step_of_present (s := s.withFetchWord nbits w) (t := s.wordTurn nbits w) rfl rfl, present_of_decode hm]
    rfl

/-- Settles O45: with no turn to come, step answers the state it was given. -/
theorem blockWithoutTurnsStands : Obligations.BlockWithoutTurnsStands := by
  intro s h
  simp only [step, h]

end Sys2Proof.Machine
end

section
/-! Proofs about the encoder's rows (30_encoding.md section 1, 40_encoder.md sections 2 and 4): the symbols, the three
tables, the pixel encoder as an operation, and the bit stream of a frame of encoded pixels. -/

namespace Sys2Proof.Machine

/-! ### The symbols and the tables -/

/-- Settles O7: the symbol of a bit is the number whose bits are one, the bit, zero. -/
theorem symbolRowsAnswerOneBitZero : Obligations.SymbolRowsAnswerOneBitZero :=
  ⟨fun _ => rfl, fun _ => ⟨rfl, rfl⟩⟩

/-- Settles O8: each row answers its entry of the table. -/
theorem tableEntryRowsAnswerTheirByte : Obligations.TableEntryRowsAnswerTheirByte := by
  intro s
  refine ⟨rfl, rfl, rfl, rfl, rfl, rfl, rfl, rfl, rfl, rfl, rfl, rfl, rfl, rfl, rfl, rfl, rfl, rfl, rfl, rfl⟩

theorem lutH_eq_formula (k : Key3) : lutH k = 0x92#8 ||| keyBitAt k 2 6 ||| keyBitAt k 1 3 ||| keyBitAt k 0 0 := by
  revert k; decide

theorem lutM_eq_formula (k : Key2) : lutM k = 0x49#8 ||| keyBitAt k 1 5 ||| keyBitAt k 0 2 := by
  revert k; decide

theorem lutL_eq_formula (k : Key3) : lutL k = 0x24#8 ||| keyBitAt k 2 7 ||| keyBitAt k 1 4 ||| keyBitAt k 0 1 := by
  revert k; decide

/-- Settles O9: a lookup answers its table entry, and the entries follow the formulas. -/
theorem lookupsFollowTheirFormulas : Obligations.LookupsFollowTheirFormulas := by
  refine ⟨fun s k => ?_, fun s k => ?_, fun s k => ?_⟩
  · rw [← lutH_eq_formula]; rfl
  · rw [← lutM_eq_formula]; rfl
  · rw [← lutL_eq_formula]; rfl

/-- The entries of the three tables. -/
def tableEntries : List Byte := lutHTable.toList ++ lutMTable.toList ++ lutLTable.toList

theorem tableEntries_nodup : tableEntries.Nodup := by decide

theorem lutH_mem_tableEntries (k : Key3) : lutH k ∈ tableEntries := by revert k; decide

theorem lutM_mem_tableEntries (k : Key2) : lutM k ∈ tableEntries := by revert k; decide

theorem lutL_mem_tableEntries (k : Key3) : lutL k ∈ tableEntries := by revert k; decide

theorem mem_tableEntries_of_encodeChannel {v b : Byte} (h : b ∈ (encodeChannel v).bytes) : b ∈ tableEntries := by
  simp only [encodeChannel, EncodedChannel.bytes, List.mem_cons, List.not_mem_nil, or_false] at h
  obtain rfl | rfl | rfl := h
  · exact lutH_mem_tableEntries _
  · exact lutM_mem_tableEntries _
  · exact lutL_mem_tableEntries _

theorem bytes_encodePixel (ch0 ch1 ch2 : Byte) :
    (encodePixel ch0 ch1 ch2).bytes =
      (encodeChannel ch1).bytes ++ (encodeChannel ch0).bytes ++ (encodeChannel ch2).bytes := rfl

/-- Settles O13: the entries are distinct, and a pixel's bytes are those of three channels, each three lookups. -/
theorem encodedBytesAreTableEntries : Obligations.EncodedBytesAreTableEntries := by
  refine ⟨tableEntries_nodup, fun ch0 ch1 ch2 b hb => ?_⟩
  rw [bytes_encodePixel, List.mem_append, List.mem_append] at hb
  obtain (h | h) | h := hb <;> exact mem_tableEntries_of_encodeChannel h

/-! ### Streams -/

@[simp] theorem streamOf_append (bs cs : List Byte) : streamOf (bs ++ cs) = streamOf bs ++ streamOf cs :=
  List.flatMap_append

/-- Settles O11: the stream of an encoded channel is that of the symbols of its bits, most significant first. -/
theorem channelWaveformBitByBit : Obligations.ChannelWaveformBitByBit := by
  intro v j hj
  rw [streamOf_encodeChannel]
  refine ⟨length_flatMap_symbolBits (byteBits v), ?_⟩
  interval_cases j <;> exact ⟨rfl, rfl, rfl⟩

theorem streamOf_pixel (l : ReqLatch) :
    streamOf l.pixel.bytes = channelStream l.ch1 ++ channelStream l.ch0 ++ channelStream l.ch2 := by
  rw [ReqLatch.pixel, bytes_encodePixel]
  simp only [streamOf_append, streamOf_encodeChannel]

theorem streamOf_pixels (ls : List ReqLatch) :
    streamOf (ls.flatMap fun l => l.pixel.bytes) =
      ls.flatMap fun l => channelStream l.ch1 ++ channelStream l.ch0 ++ channelStream l.ch2 := by
  induction ls with
  | nil => rfl
  | cons l ls ih => simp only [List.flatMap_cons, streamOf_append, streamOf_pixel, ih]

theorem padFrame_eq (bs : List Byte) : padFrame bs = [Config.pad] ++ bs ++ [Config.pad] := rfl

theorem streamOf_pad : streamOf [Config.pad] = List.replicate 8 false := by decide

/-- Settles O22: the stream of a frame is that of the pads and of the pixels, one after another. -/
theorem frameOfPixelsAsABitStream : Obligations.FrameOfPixelsAsABitStream := by
  intro ls
  rw [padFrame_eq, streamOf_append, streamOf_append, streamOf_pad, streamOf_pixels]

/-! ### The pixel encoder as an operation (40_encoder.md R76; log entry 8) -/

variable {s : State} {ch0 ch1 ch2 : Byte}

theorem encodesOwnPixel_iff : s.encodesOwnPixel ch0 ch1 ch2 ↔ encodesForItself s ch0 ch1 ch2 := by
  constructor
  · rintro ⟨⟨hlock, hphase⟩, hreq⟩
    obtain ⟨l, hl, hch⟩ := Option.map_eq_some_iff.mp hreq
    cases hch
    exact ⟨hlock, hphase, l.led, hl⟩
  · rintro ⟨hlock, hphase, led, hreq⟩
    exact ⟨⟨hlock, hphase⟩, by rw [hreq]; rfl⟩

theorem exec_encPx_of_not_own (h : ¬ encodesForItself s ch0 ch1 ch2) :
    exec (.encPx ch0 ch1 ch2) s = .next (s.answers (.bytes (encodePixel ch0 ch1 ch2).bytes)) :=
  if_neg (encodesOwnPixel_iff.not.mpr h)

theorem exec_encPx_of_own (h : encodesForItself s ch0 ch1 ch2) :
    exec (.encPx ch0 ch1 ch2) s =
      .next ((s.setRequest s.agent { s.request s.agent with px := some (encodePixel ch0 ch1 ch2) }).answers
        (.bytes (encodePixel ch0 ch1 ch2).bytes)) := by
  obtain ⟨hlock, hphase, led, hreq⟩ := h
  change execEncPx ch0 ch1 ch2 s = _
  rw [execEncPx, if_pos (encodesOwnPixel_iff.mpr ⟨hlock, hphase, led, hreq⟩),
    latchPixel_of_holder ⟨hlock, hphase⟩ hreq, ReqLatch.pixel]

/-- Settles O15: the operands are the holder's own, so `px` takes their pixel. -/
theorem pixelEncoderLatchesTheHoldersPixel : Obligations.PixelEncoderLatchesTheHoldersPixel :=
  fun _ _ _ _ h => exec_encPx_of_own h

/-- Settles O14: in either case the answer is the pixel, and only the holder's evaluation for itself touches the
requests. -/
theorem pixelEncoderOrdersGreenRedBlue : Obligations.PixelEncoderOrdersGreenRedBlue := by
  intro ch0 ch1 ch2 s
  by_cases h : encodesForItself s ch0 ch1 ch2
  · exact ⟨_, exec_encPx_of_own h, fun hno => absurd h hno⟩
  · exact ⟨s.reqs, exec_encPx_of_not_own h, fun _ => rfl⟩

/-! ### The response (60_exceptions.md section 1) -/

/-- The status that a response stands for. -/
def statusOfResponse (code : BitVec 2) (value : Option TransportErr) : Status :=
  match value with
  | some e => .transmissionFailure e
  | none => if code = 0#2 then .ok else .allocationFailure

theorem statusOfResponse_response (st : Status) : statusOfResponse st.code st.failureValue = st := by
  cases st <;> rfl

/-- Settles O57: the codes are as listed, and a status is read back from its code and failure value. -/
theorem responseDeterminesTheStatus : Obligations.ResponseDeterminesTheStatus := by
  refine ⟨⟨rfl, rfl, fun _ => ⟨rfl, rfl⟩, rfl⟩, fun st st' hcode hvalue => ?_⟩
  rw [← statusOfResponse_response st, hcode, hvalue, statusOfResponse_response]

end Sys2Proof.Machine
end

section
/-! Proofs about bring-up, reset and invocation (70_reset_and_hazards.md sections 1 and 2, 43_update.md R118). -/

namespace Sys2Proof.Machine

variable {s : State} {n c b found : Nat}

/-! ### Bring-up -/

theorem Topology.supported_iff : (Topology.mk n c b).supported = true ↔ n ≠ 0 ∧ c = 3 ∧ b = 9 := by
  simp [Topology.supported, Config.channels, Config.slotBytes, and_assoc]

theorem exec_bringup_of_up (h : s.up = true) : exec (.bringup n c b found) s = .next (s.answers .noStep) :=
  if_pos h

theorem exec_bringup_of_mismatch (hdown : s.up = false) (h : ¬ (found = n ∧ n ≠ 0 ∧ c = 3 ∧ b = 9)) :
    exec (.bringup n c b found) s = .next (s.answers (.bringup .configurationMismatch)) := by
  change execBringup n c b found s = _
  rw [execBringup, if_neg (by simp [hdown])]
  by_cases hsup : (Topology.mk n c b).supported = true
  · rw [if_neg (by simp [hsup]), if_pos fun hn => h ⟨hn, Topology.supported_iff.mp hsup⟩]
  · rw [if_pos (by simpa using hsup)]

theorem exec_bringup_of_match (hdown : s.up = false) (hn : n ≠ 0) :
    exec (.bringup n 3 9 n) s = .next ((comeUp ⟨n, 3, 9⟩ s).answers (.bringup .up)) := by
  have hsup : (Topology.mk n 3 9).supported = true := Topology.supported_iff.mpr ⟨hn, rfl, rfl⟩
  change execBringup n 3 9 n s = _
  rw [execBringup, if_neg (by simp [hdown]), if_neg (by simp [hsup]), if_neg (by simp)]

/-- Settles O42: BRINGUP asks first whether the block is up. -/
theorem bringupOfABlockThatIsUpIsNoStep : Obligations.BringupOfABlockThatIsUpIsNoStep :=
  fun _ _ _ _ _ h => exec_bringup_of_up h

/-- Settles O41: each of the four reasons breaks the condition under which the block comes up. -/
theorem configurationMismatchCreatesNothing : Obligations.ConfigurationMismatchCreatesNothing := by
  intro s n c b found hdown h
  refine exec_bringup_of_mismatch hdown ?_
  rintro ⟨hfound, hn, hc, hb⟩
  obtain h | h | h | h := h <;> contradiction

/-- Settles O40: the buffer is a fresh allocation, whose readings and canonical form are known. -/
theorem bringupCreatesBufferAndEndpoints : Obligations.BringupCreatesBufferAndEndpoints := by
  intro s n hdown hn
  refine ⟨_, exec_bringup_of_match hdown hn, fun a => ?_, Memory.fresh_wf .., rfl⟩
  change (Memory.fresh s.chain s.draws 0 (n * 9)).read a = _
  rw [Memory.fresh_read, Nat.zero_add, Nat.mul_comm]
  simp only [Nat.zero_le, true_and]

/-! ### Reset -/

/-- Settles O43: every field is read off the reset state. -/
theorem resetLeavesTheBlockDown : Obligations.ResetLeavesTheBlockDown :=
  ⟨rfl, rfl, rfl, fun _ => rfl, rfl, fun _ => rfl, rfl⟩

/-- Settles O46: of the reset state nothing exists. -/
theorem invariantHoldsAtReset : Obligations.InvariantHoldsAtReset :=
  State.Inv.of_nothing rfl rfl rfl rfl rfl rfl rfl rfl

/-- The canonical form, of the first entry and of the rest. -/
theorem Requests.wf_cons_iff (e : Nat × Request) (rs : List (Nat × Request)) :
    Requests.wf (e :: rs) = true ↔
      e.2.phase ≠ .idle ∧ (∀ e' ∈ rs.head?, e.1 < e'.1) ∧ Requests.wf rs = true := by
  cases rs with
  | nil => simp [Requests.wf]
  | cons e' rs => simp [Requests.wf, and_assoc]

theorem Requests.lt_of_wf {e : Nat × Request} {rs : List (Nat × Request)} (h : Requests.wf (e :: rs) = true) :
    ∀ e' ∈ rs, e.1 < e'.1 := by
  induction rs generalizing e with
  | nil => simp
  | cons e1 rs ih =>
    obtain ⟨-, hlt, htail⟩ := (Requests.wf_cons_iff e (e1 :: rs)).mp h
    have h1 : e.1 < e1.1 := hlt e1 rfl
    intro e' he'
    rcases List.mem_cons.mp he' with rfl | he'
    · exact h1
    · exact h1.trans (ih htail e' he')

/-- In canonical form what is listed under a name is what is read under it. -/
theorem Requests.get_of_mem {rs : List (Nat × Request)} {e : Nat × Request} (h : Requests.wf rs = true)
    (he : e ∈ rs) : Requests.get rs e.1 = e.2 := by
  induction rs with
  | nil => simp at he
  | cons e1 rs ih =>
    rcases List.mem_cons.mp he with rfl | he
    · simp [Requests.get]
    · have hne : e1.1 ≠ e.1 := (Requests.lt_of_wf h e he).ne
      simp only [Requests.get, if_neg hne]
      exact ih ((Requests.wf_cons_iff e1 rs).mp h).2.2 he

theorem State.anyInProgress_of_phase {q : Nat} (h : (s.phase q).inProgress = true) : s.anyInProgress = true := by
  by_contra hno
  rcases s.idle_or_done_of_none_in_progress (by simpa using hno) q with hp | hp <;> simp [hp, Phase.inProgress] at h

theorem State.anyInProgress_eq_false (hwf : Requests.wf s.reqs = true) (h : ∀ q, (s.phase q).inProgress = false) :
    s.anyInProgress = false := by
  refine List.any_eq_false.mpr fun e he => ?_
  have hp := h e.1
  rw [State.phase, State.request, Requests.get_of_mem hwf he] at hp
  simp [hp]

theorem step_of_reset {t : Turn} {rest : List Turn} (ha : s.agenda = t :: rest) (hact : t.act = .reset) :
    step s = resetEvent (s.beginTurn t rest) := by
  rw [step_of_turn ha, hact, act]

/-- Settles O44: the request list tells whether a request is in progress, and that decides. -/
theorem resetEventNeedsAQuietBlock : Obligations.ResetEventNeedsAQuietBlock := by
  intro s t rest ha hact
  rw [step_of_reset ha hact]
  constructor
  · intro hquiet hwf
    have hno : (s.beginTurn t rest).anyInProgress = false := State.anyInProgress_eq_false (s := s) hwf hquiet
    simp only [resetEvent, hno, Bool.false_eq_true, if_false]
    rfl
  · rintro ⟨q, hq⟩
    have hany : (s.beginTurn t rest).anyInProgress = true := State.anyInProgress_of_phase (s := s) hq
    simp only [resetEvent, hany, if_true]

/-! ### Invocation -/

theorem step_of_invoke {t : State} {x : Turn} {rest : List Turn} {led : Nat} {ch0 ch1 ch2 : Byte}
    (ha : s.agenda = x :: rest) (hact : x.act = .invoke led ch0 ch1 ch2)
    (h : invoke (s.beginTurn x rest) x.agent led ch0 ch1 ch2 = some t) : step s = .next (t.reporting x.agent) := by
  rw [step_of_turn ha]
  simp only [act, hact, State.beginTurn_agent, h]

/-- Settles O27: the request can be made, and in CHECK it reports that the turn is done. -/
theorem invocationLatchesTheOperands : Obligations.InvocationLatchesTheOperands := by
  intro s t rest led ch0 ch1 ch2 ep ha hact hup hidle hep
  rw [step_of_invoke ha hact (invoke_of_endpoint (s := s.beginTurn t rest) hup hidle hep), State.reporting_eq]
  simp only [State.report, State.phase_setRequest_self]
  rfl

end Sys2Proof.Machine
end

section
/-! Proofs about the operations as rows of the table: what each does where it is not enabled (log entry 4), and the
transport write in its two phases (42_composer.md R102). -/

namespace Sys2Proof.Machine

variable {s : State}

/-! ### Where an operation is not enabled -/

theorem exec_slotWr_of_not_enabled (h : ¬ s.canWriteSlot s.agent) : exec .slotWr s = .next (s.answers .noStep) :=
  if_neg h

theorem exec_bufRd_of_not_enabled (h : s.lock ≠ .held s.agent) : exec .bufRd s = .next (s.answers .noStep) :=
  if_neg h

theorem exec_compose_of_not_enabled (h : ¬ s.canCompose s.agent) : exec .compose s = .next (s.answers .noStep) :=
  if_neg h

theorem exec_lockAcq_of_not_waiting (h : s.phase s.agent ≠ .wait) : exec .lockAcq s = .next (s.answers .noStep) := by
  have hno : ¬ s.canAcquire s.agent := fun hcan => h hcan.2
  change execLockAcq s = _
  rw [execLockAcq, if_neg hno, if_neg h]

theorem exec_lockRel_of_not_holder (h : ¬ s.holdsIn s.agent .rel) : exec .lockRel s = .next (s.answers .noStep) :=
  if_neg h

/-! ### The transport write -/

theorem exec_xmit_of_not_sending (h : ¬ (beginWrite s s.agent).holdsIn s.agent .send) :
    exec .xmit s = .next (s.answers .noStep) := by
  change execXmit s = _
  simp only [execXmit, if_neg h]

theorem exec_xmit_of_answer {r : TransportAnswer} (h : (beginWrite s s.agent).holdsIn s.agent .send)
    (ht : s.tx = some r) :
    exec .xmit s = .next ((takeAnswer (beginWrite s s.agent) s.agent).answers (.transport r)) := by
  change execXmit s = _
  simp only [execXmit, if_pos h, ht]

theorem exec_xmit_of_silence (h : (beginWrite s s.agent).holdsIn s.agent .send) (ht : s.tx = none) :
    exec .xmit s = .next ((beginWrite s s.agent).answers .waiting) := by
  change execXmit s = _
  simp only [execXmit, if_pos h, ht]

theorem beginWrite_of_not_held {q : Nat} (h : s.phase q ≠ .held) : beginWrite s q = s :=
  beginWrite_of_not_enabled fun hcan => h hcan.1.2

/-- A request waits for the transport after the beginning of its write only if it waited before, or held the lock in
HELD with its frame composed. -/
theorem holdsIn_send_of_beginWrite {q : Nat} (h : (beginWrite s q).holdsIn q .send) :
    s.holdsIn q .send ∨ s.canBeginWrite q := by
  by_cases hcan : s.canBeginWrite q
  · exact .inr hcan
  · rw [beginWrite_of_not_enabled hcan] at h
    exact .inl h

/-- Settles O18: each clause is the negation of its operation's precondition. -/
theorem operationsOutOfOrderAreNoSteps : Obligations.OperationsOutOfOrderAreNoSteps := by
  intro s
  refine ⟨fun h => exec_slotWr_of_not_enabled fun hcan => h ?_, exec_bufRd_of_not_enabled,
    fun h => exec_compose_of_not_enabled fun hcan => h ?_, fun h => exec_xmit_of_not_sending fun hsend => h ?_,
    exec_lockAcq_of_not_waiting, exec_lockRel_of_not_holder⟩
  · obtain ⟨⟨hlock, hphase⟩, hreq, hpx⟩ := hcan
    exact ⟨hlock, hphase, Option.isSome_iff_ne_none.mp hreq, Option.isSome_iff_ne_none.mp hpx⟩
  · obtain ⟨⟨hlock, hphase⟩, hdone⟩ := hcan
    exact ⟨hlock, hphase, hdone⟩
  · rcases holdsIn_send_of_beginWrite hsend with ⟨hlock, hphase⟩ | ⟨⟨hlock, hphase⟩, hframe⟩
    · exact ⟨hlock, .inl hphase⟩
    · exact ⟨hlock, .inr ⟨hphase, Option.isSome_iff_ne_none.mp hframe⟩⟩

/-- Settles O23: the write begins, which leaves the frame in place, and takes the answer if it is there. -/
theorem xmitHandsTheFrameOverOnce : Obligations.XmitHandsTheFrameOverOnce := by
  intro s f hlock hphase hframe
  have hbegin := beginWrite_of_enabled (s := s) (q := s.agent) ⟨⟨hlock, hphase⟩, by simp [hframe]⟩
  have hsend : (beginWrite s s.agent).holdsIn s.agent .send := by
    rw [hbegin]
    exact ⟨hlock, by simp⟩
  constructor
  · intro r ht
    have hf : ((beginWrite s s.agent).request s.agent).frame = some f := by simp [hbegin, hframe]
    rw [exec_xmit_of_answer hsend ht, takeAnswer_of_answer hsend (by simpa [hbegin] using ht) hf, hbegin]
    simp only [State.request_setRequest_self, State.setRequest_setRequest]
    rfl
  · intro ht
    rw [exec_xmit_of_silence hsend ht, hbegin]
    rfl

/-- Settles O24: in SEND no write begins. -/
theorem xmitInSendTakesTheAnswer : Obligations.XmitInSendTakesTheAnswer := by
  intro s f hlock hphase hframe
  have hbegin : beginWrite s s.agent = s := beginWrite_of_not_held (by simp [hphase])
  have hsend : (beginWrite s s.agent).holdsIn s.agent .send := by
    rw [hbegin]
    exact ⟨hlock, hphase⟩
  constructor
  · intro r ht
    rw [exec_xmit_of_answer hsend ht, hbegin, takeAnswer_of_answer ⟨hlock, hphase⟩ ht hframe]
    rfl
  · intro ht
    rw [exec_xmit_of_silence hsend ht, hbegin]
    rfl

end Sys2Proof.Machine
end



section
/-! The rows of the table as the named operations of Machine/Ops.lean: a row is its named operation, which changes
nothing where the row is not enabled, with some answer to the invoker. -/

namespace Sys2Proof.Machine

@[simp] theorem beginWrite_tx (s : State) (q : Nat) : (beginWrite s q).tx = s.tx := by
  unfold beginWrite; split <;> rfl

theorem exec_lockAcq (s : State) : ∃ r, exec .lockAcq s = .next ((acquire s s.agent).answers r) := by
  by_cases h : s.canAcquire s.agent
  · exact ⟨_, exec_lockAcq_of_enabled h⟩
  · rw [acquire_of_not_enabled h]
    by_cases hp : s.phase s.agent = .wait
    · exact ⟨_, exec_lockAcq_of_waiting hp fun hfree => h ⟨hfree, hp⟩⟩
    · exact ⟨_, exec_lockAcq_of_not_waiting hp⟩

theorem exec_lockRel (s : State) : ∃ r, exec .lockRel s = .next ((release s s.agent).answers r) := by
  by_cases h : s.holdsIn s.agent .rel
  · exact ⟨_, if_pos h⟩
  · rw [release_of_not_holder h]
    exact ⟨_, exec_lockRel_of_not_holder h⟩

theorem exec_xmit (s : State) :
    ∃ r, exec .xmit s = .next ((takeAnswer (beginWrite s s.agent) s.agent).answers r) := by
  by_cases h : (beginWrite s s.agent).holdsIn s.agent .send
  · cases ht : s.tx with
    | some r => exact ⟨_, exec_xmit_of_answer h ht⟩
    | none =>
      rw [takeAnswer_of_silence (s := beginWrite s s.agent) (by simpa using ht)]
      exact ⟨_, exec_xmit_of_silence h ht⟩
  · have hno : ¬ s.canBeginWrite s.agent := fun hcan => h (by
      rw [beginWrite_of_enabled hcan]
      exact ⟨hcan.1.1, State.phase_setRequest_self ..⟩)
    rw [takeAnswer_of_not_sending h, beginWrite_of_not_enabled hno]
    exact ⟨_, exec_xmit_of_not_sending h⟩

theorem exec_encPx (ch0 ch1 ch2 : Byte) (s : State) :
    (∃ r, exec (.encPx ch0 ch1 ch2) s = .next (s.answers r)) ∨
      ∃ r, exec (.encPx ch0 ch1 ch2) s = .next ((latchPixel s s.agent).answers r) := by
  by_cases h : s.encodesOwnPixel ch0 ch1 ch2
  · exact .inr ⟨_, if_pos h⟩
  · exact .inl ⟨_, if_neg h⟩

theorem writeSlot_of_not_enabled {s : State} {q : Nat} (h : ¬ s.canWriteSlot q) : writeSlot s q = .next s := by
  unfold writeSlot
  split
  · rename_i hheld
    split
    · rename_i l p hl hp
      exact absurd ⟨hheld, by simp [hl], by simp [hp]⟩ h
    · rfl
  · rfl

theorem exec_slotWr (s : State) :
    ∃ r, exec .slotWr s = andThen (writeSlot s s.agent) fun u => .next (u.answers r) := by
  by_cases h : s.canWriteSlot s.agent
  · exact ⟨_, if_pos h⟩
  · rw [writeSlot_of_not_enabled h]
    exact ⟨_, exec_slotWr_of_not_enabled h⟩

theorem exec_compose (s : State) :
    ∃ r : State → Result, exec .compose s = andThen (composeFrame s s.agent) fun u => .next (u.answers (r u)) := by
  by_cases h : s.canCompose s.agent
  · exact ⟨_, if_pos h⟩
  · rw [composeFrame_of_not_enabled h]
    exact ⟨fun _ => .noStep, exec_compose_of_not_enabled h⟩

theorem exec_bufRd_of_holder {s : State} {bs : List Byte} (h : s.lock = .held s.agent)
    (hb : s.wholeBuffer = some bs) : exec .bufRd s = .next (s.answers (.bytes bs)) := by
  change execBufRd s = _
  simp only [execBufRd, if_pos h, hb]

theorem exec_bufRd (s : State) :
    (∃ r, exec .bufRd s = .next (s.answers r)) ∨ (s.wholeBuffer = none ∧ exec .bufRd s = .fault .outOfBuffer) := by
  by_cases h : s.lock = .held s.agent
  · cases hb : s.wholeBuffer with
    | some bs => exact .inl ⟨_, exec_bufRd_of_holder h hb⟩
    | none =>
      refine .inr ⟨rfl, ?_⟩
      change execBufRd s = _
      simp only [execBufRd, if_pos h, hb]
  · exact .inl ⟨_, exec_bufRd_of_not_enabled h⟩

end Sys2Proof.Machine
end


section
/-! What a step can do, said once. Every operation of the table but BRINGUP, and every act but a reset, is a sequence of
the named operations on the acting request (`SmallSteps`); a step is such a sequence, a bring-up, or a reset
(`step_cases`). The rules about all steps follow, each from what one named operation does. -/

namespace Sys2Proof.Machine

/-- One of the named operations of Machine/Ops.lean on request `q`, or the answer to its invoker. -/
inductive SmallStep (q : Nat) : State → State → Prop where
  | made {s t : State} {led : Nat} {ch0 ch1 ch2 : Byte} (h : invoke s q led ch0 ch1 ch2 = some t) : SmallStep q s t
  | checked (s : State) : SmallStep q s (checkFrame s q)
  | acquired (s : State) : SmallStep q s (acquire s q)
  | latched (s : State) : SmallStep q s (latchPixel s q)
  | written {s t : State} (h : writeSlot s q = .next t) : SmallStep q s t
  | composed {s t : State} (h : composeFrame s q = .next t) : SmallStep q s t
  | begun (s : State) : SmallStep q s (beginWrite s q)
  | taken (s : State) : SmallStep q s (takeAnswer s q)
  | released (s : State) : SmallStep q s (release s q)
  | answered (s : State) (r : Result) : SmallStep q s (s.answers r)

/-- Named operations on request `q`, one after another. -/
abbrev SmallSteps (q : Nat) : State → State → Prop := Relation.ReflTransGen (SmallStep q)

variable {s t : State} {q : Nat}

/-- All that a named operation can do: answer or nothing; write its own request, in a phase that is no earlier; take
the free lock; write the slot of the holder; take the answer to the frame of the holder; release the lock. -/
theorem SmallStep.effect (h : SmallStep q s t) :
    (∃ r, t = s.answers r) ∨
    (∃ r, (s.phase q).rank ≤ r.phase.rank ∧ t = s.setRequest q r) ∨
    (s.canAcquire q ∧ t = ((s.setRequest q { s.request q with phase := .held }).setLock (.held q)).appendOrder
      ((s.request q).req.map (CriticalSection.mk q)).toList) ∨
    (∃ a vs m, s.holdsIn q .held ∧ Memory.writeBytes s.buf a vs = some m ∧
      t = (s.setRequest q { s.request q with slotDone := true }).setBuf m) ∨
    (∃ r f, s.holdsIn q .send ∧ s.tx = some r ∧ (s.request q).frame = some f ∧
      t = (s.setRequest q { s.request q with phase := .rel, status := some r.toStatus }).appendWire ⟨q, f, r⟩) ∨
    (s.holdsIn q .rel ∧ t = (s.endRequest q (s.request q).status).setLock .free) := by
  cases h with
  | made h =>
    obtain ⟨-, hp, ep, -, rfl⟩ := invoke_eq_some h
    exact .inr (.inl ⟨_, by simp [hp, Phase.rank], rfl⟩)
  | checked =>
    obtain ⟨-, h⟩ | ⟨hp, -, h⟩ | ⟨hp, -, h⟩ := checkFrame_cases s q <;> rw [h]
    · exact .inl ⟨s.result, rfl⟩
    · exact .inr (.inl ⟨_, by simp [hp, Phase.rank], rfl⟩)
    · exact .inr (.inl ⟨_, by simp [hp, Phase.rank], rfl⟩)
  | acquired =>
    by_cases h : s.canAcquire q
    · exact .inr (.inr (.inl ⟨h, acquire_of_enabled h⟩))
    · exact .inl ⟨s.result, acquire_of_not_enabled h⟩
  | latched =>
    unfold latchPixel
    split
    · split
      · exact .inr (.inl ⟨_, by exact le_rfl, rfl⟩)
      · exact .inl ⟨s.result, rfl⟩
    · exact .inl ⟨s.result, rfl⟩
  | written h =>
    obtain rfl | ⟨l, px, m, hheld, -, -, hm, rfl⟩ := writeSlot_eq_next h
    · exact .inl ⟨t.result, rfl⟩
    · exact .inr (.inr (.inr (.inl ⟨_, _, m, hheld, hm, rfl⟩)))
  | composed h =>
    obtain rfl | ⟨bs, -, -, rfl⟩ := composeFrame_eq_next h
    · exact .inl ⟨t.result, rfl⟩
    · exact .inr (.inl ⟨_, by exact le_rfl, rfl⟩)
  | begun =>
    by_cases h : s.canBeginWrite q
    · exact .inr (.inl ⟨_, by simp [h.1.2, Phase.rank], beginWrite_of_enabled h⟩)
    · exact .inl ⟨s.result, beginWrite_of_not_enabled h⟩
  | taken =>
    obtain h | ⟨r, f, hsend, htx, hframe, h⟩ := takeAnswer_cases s q
    · exact .inl ⟨s.result, h⟩
    · exact .inr (.inr (.inr (.inr (.inl ⟨r, f, hsend, htx, hframe, h⟩))))
  | released =>
    by_cases h : s.holdsIn q .rel
    · exact .inr (.inr (.inr (.inr (.inr ⟨h, release_of_holder h⟩))))
    · exact .inl ⟨s.result, release_of_not_holder h⟩
  | answered r => exact .inl ⟨r, rfl⟩

/-! ### Operations and acts as sequences -/

theorem SmallSteps.of_answers {r : Result} (h : (.next (s.answers r) : Step) = .next t) : SmallSteps q s t := by
  cases h
  exact .single (.answered s r)

theorem SmallSteps.then_answers {u : State} {r : Result} (h : SmallSteps q s u)
    (ht : (.next (u.answers r) : Step) = .next t) : SmallSteps q s t := by
  cases ht
  exact h.tail (.answered u r)

theorem SmallSteps.of_work (h : work s q = .next t) : SmallSteps q s t := by
  obtain ⟨s1, hw, h⟩ := andThen_eq_next h
  obtain ⟨s2, hc, h⟩ := andThen_eq_next h
  cases h
  exact (((Relation.ReflTransGen.single (.latched s)).tail (.written hw)).tail (.composed hc)).tail (.begun s2)

theorem SmallSteps.of_runRequest (h : runRequest s q = .next t) : SmallSteps q s t := by
  obtain ⟨s1, hw, h⟩ := andThen_eq_next h
  have hstart : SmallSteps q s (acquire (checkFrame s q) q) :=
    (Relation.ReflTransGen.single (.checked s)).tail (.acquired _)
  exact then_answers (((hstart.trans (of_work hw)).tail (.taken s1)).tail (.released _)) h

theorem SmallSteps.of_advance (h : advance s q = .next t) : SmallSteps q s t := by
  unfold advance at h
  split at h
  · exact of_answers h
  · exact of_answers h
  · exact then_answers (.single (.checked s)) h
  · exact then_answers (.single (.acquired s)) h
  · obtain ⟨s1, hw, h⟩ := andThen_eq_next h
    exact (of_work hw).then_answers h
  · exact then_answers (.single (.taken s)) h
  · exact then_answers (.single (.released s)) h

theorem SmallSteps.of_encPx {ch0 ch1 ch2 : Byte} (h : exec (.encPx ch0 ch1 ch2) s = .next t) :
    SmallSteps s.agent s t := by
  rcases exec_encPx ch0 ch1 ch2 s with ⟨r, he⟩ | ⟨r, he⟩
  · exact of_answers (he.symm.trans h)
  · exact then_answers (.single (.latched s)) (he.symm.trans h)

theorem SmallSteps.of_slotWr (h : exec .slotWr s = .next t) : SmallSteps s.agent s t := by
  obtain ⟨r, he⟩ := exec_slotWr s
  obtain ⟨u, hu, h⟩ := andThen_eq_next (he.symm.trans h)
  exact then_answers (.single (.written hu)) h

theorem SmallSteps.of_bufRd (h : exec .bufRd s = .next t) : SmallSteps s.agent s t := by
  rcases exec_bufRd s with ⟨r, he⟩ | ⟨-, he⟩
  · exact of_answers (he.symm.trans h)
  · cases he.symm.trans h

theorem SmallSteps.of_compose (h : exec .compose s = .next t) : SmallSteps s.agent s t := by
  obtain ⟨r, he⟩ := exec_compose s
  obtain ⟨u, hu, h⟩ := andThen_eq_next (he.symm.trans h)
  exact then_answers (.single (.composed hu)) h

theorem SmallSteps.of_xmit (h : exec .xmit s = .next t) : SmallSteps s.agent s t := by
  obtain ⟨r, he⟩ := exec_xmit s
  have hbegin : SmallSteps s.agent s (beginWrite s s.agent) := .single (.begun s)
  exact then_answers (hbegin.tail (.taken _)) (he.symm.trans h)

theorem SmallSteps.of_lockAcq (h : exec .lockAcq s = .next t) : SmallSteps s.agent s t := by
  obtain ⟨r, he⟩ := exec_lockAcq s
  exact then_answers (.single (.acquired s)) (he.symm.trans h)

theorem SmallSteps.of_lockRel (h : exec .lockRel s = .next t) : SmallSteps s.agent s t := by
  obtain ⟨r, he⟩ := exec_lockRel s
  exact then_answers (.single (.released s)) (he.symm.trans h)

theorem SmallSteps.of_update {led : Nat} {ch0 ch1 ch2 : Byte} (h : exec (.update led ch0 ch1 ch2) s = .next t) :
    SmallSteps s.agent s t := by
  change execUpdate led ch0 ch1 ch2 s = _ at h
  unfold execUpdate at h
  split at h
  · rename_i s1 hmade
    exact .head (.made hmade) (of_runRequest h)
  · exact of_answers h

/-- What a bring-up can do: only answer, or bring a block that is down up with a supported descriptor. -/
theorem exec_bringup_cases {n c b found : Nat} (h : exec (.bringup n c b found) s = .next t) :
    (∃ r, t = s.answers r) ∨
      (s.up = false ∧ 0 < n ∧ t = (comeUp ⟨n, Config.channels, Config.slotBytes⟩ s).answers (.bringup .up)) := by
  by_cases hup : s.up = true
  · exact .inl ⟨_, Host.Outcome.next.inj (h.symm.trans (exec_bringup_of_up hup))⟩
  · rw [Bool.not_eq_true] at hup
    by_cases hmatch : found = n ∧ n ≠ 0 ∧ c = 3 ∧ b = 9
    · obtain ⟨rfl, hn, rfl, rfl⟩ := hmatch
      exact .inr ⟨hup, Nat.pos_of_ne_zero hn, Host.Outcome.next.inj (h.symm.trans (exec_bringup_of_match hup hn))⟩
    · exact .inl ⟨_, Host.Outcome.next.inj (h.symm.trans (exec_bringup_of_mismatch hup hmatch))⟩

/-- What an operation of the table can do when it answers a next state. -/
theorem exec_cases {i : Instr} (h : exec i s = .next t) :
    SmallSteps s.agent s t ∨
      ∃ n, s.up = false ∧ 0 < n ∧ t = (comeUp ⟨n, Config.channels, Config.slotBytes⟩ s).answers (.bringup .up) := by
  cases i with
  | encPx ch0 ch1 ch2 => exact .inl (.of_encPx h)
  | slotWr => exact .inl (.of_slotWr h)
  | bufRd => exact .inl (.of_bufRd h)
  | compose => exact .inl (.of_compose h)
  | xmit => exact .inl (.of_xmit h)
  | lockAcq => exact .inl (.of_lockAcq h)
  | lockRel => exact .inl (.of_lockRel h)
  | update led ch0 ch1 ch2 => exact .inl (.of_update h)
  | bringup n c b found =>
    rcases exec_bringup_cases h with ⟨r, rfl⟩ | hcome
    · exact .inl (.single (.answered s r))
    · exact .inr ⟨n, hcome⟩
  | _ => exact .inl (.of_answers h)

/-- What a step with a turn to come can do when it answers a next state. -/
theorem step_cases {x : Turn} {rest : List Turn} (ha : s.agenda = x :: rest) (h : step s = .next t) :
    SmallSteps x.agent (s.beginTurn x rest) t ∨
      (∃ n, s.up = false ∧ 0 < n ∧
        t = (comeUp ⟨n, Config.channels, Config.slotBytes⟩ (s.beginTurn x rest)).answers (.bringup .up)) ∨
      (x.act = .reset ∧ t = { State.reset with chain := s.chain, draws := s.draws, agenda := rest }) := by
  rw [step_of_turn ha] at h
  cases hact : x.act with
  | present m =>
    rw [hact, act] at h
    cases hdec : decode m with
    | ok i =>
      rw [present_of_decode hdec] at h
      rcases exec_cases h with hsteps | hcome
      · exact .inl hsteps
      · exact .inr (.inl hcome)
    | error e => simp [present, hdec] at h
  | invoke led ch0 ch1 ch2 =>
    simp only [hact, act, State.beginTurn_agent] at h
    split at h
    · rename_i s1 hmade
      exact .inl (SmallSteps.then_answers (.single (.made hmade)) h)
    · exact .inl (.of_answers h)
  | advance =>
    rw [hact, act] at h
    exact .inl (.of_advance h)
  | reset =>
    rw [hact, act, resetEvent] at h
    split at h
    · cases h
    · exact .inr (.inr ⟨rfl, (Host.Outcome.next.inj h).symm⟩)

/-! ### The invariant -/

theorem SmallStep.keeps_inv (h : SmallStep q s t) (hI : s.Inv) : t.Inv := by
  cases h with
  | made h => exact hI.invoke h
  | checked => exact hI.checkFrame q
  | acquired => exact hI.acquire q
  | latched => exact hI.latchPixel q
  | written h => exact hI.writeSlot h
  | composed h => exact hI.composeFrame h
  | begun => exact hI.beginWrite q
  | taken => exact hI.takeAnswer q
  | released => exact hI.release q
  | answered r => exact hI.answers r

theorem SmallSteps.keep_inv (h : SmallSteps q s t) (hI : s.Inv) : t.Inv := by
  induction h with
  | refl => exact hI
  | tail _ hstep ih => exact hstep.keeps_inv ih

/-- Settles O47: a sequence of named operations keeps the invariant, a bring-up and a reset establish it. -/
theorem everyStepKeepsTheInvariant : Obligations.EveryStepKeepsTheInvariant := by
  intro s t hI h
  cases ha : s.agenda with
  | nil => rw [← Host.Outcome.next.inj ((blockWithoutTurnsStands s ha).symm.trans h)]; exact hI
  | cons x rest =>
    rcases step_cases ha h with hsteps | ⟨n, hdown, hn, rfl⟩ | ⟨-, rfl⟩
    · exact hsteps.keep_inv (hI.beginTurn x rest)
    · exact ((hI.beginTurn x rest).comeUp hdown hn).answers _
    · exact .of_nothing rfl rfl rfl rfl rfl rfl rfl rfl

/-! ### What no named operation changes -/

/-- The topology, the endpoints and the addresses of a block, the chain context and its draws, and the schedule. -/
structure Fixed where
  up        : Bool
  topo      : Option Topology
  endpoints : List Endpoint
  addresses : List Nat
  chain     : Nat
  draws     : Nat
  agent     : Nat
  alloc     : AllocAnswer
  tx        : Option TransportAnswer
  agenda    : List Turn

/-- These values of a state. -/
def State.fixed (s : State) : Fixed :=
  ⟨s.up, s.topo, s.endpoints, s.buf.map Prod.fst, s.chain, s.draws, s.agent, s.alloc, s.tx, s.agenda⟩

theorem SmallStep.fixed_eq (h : SmallStep q s t) : t.fixed = s.fixed := by
  obtain ⟨r, rfl⟩ | ⟨r, -, rfl⟩ | ⟨-, rfl⟩ | ⟨a, vs, m, -, hm, rfl⟩ | ⟨r, f, -, -, -, rfl⟩ | ⟨-, rfl⟩ := h.effect
  case inr.inr.inr.inl =>
    simp only [State.fixed, State.setBuf_buf, (Memory.writeBytes_spec _ hm).2]
    rfl
  all_goals rfl

/-- What one named operation leaves as it is, a sequence of them does. -/
theorem SmallSteps.eq_of {α : Type} {f : State → α} (hf : ∀ s t, SmallStep q s t → f t = f s)
    (h : SmallSteps q s t) : f t = f s := by
  induction h with
  | refl => rfl
  | tail _ hstep ih => exact (hf _ _ hstep).trans ih

theorem SmallSteps.fixed_eq (h : SmallSteps q s t) : t.fixed = s.fixed :=
  h.eq_of fun _ _ => SmallStep.fixed_eq

/-- Settles O49: a bring-up needs a block that is down, and the named operations touch none of these values. -/
theorem topologyIsImmutableWhileUp : Obligations.TopologyIsImmutableWhileUp := by
  intro s t x rest ha hact hup h
  rcases step_cases ha h with hsteps | ⟨n, hdown, -⟩ | ⟨hreset, -⟩
  · have heq := hsteps.fixed_eq
    simp only [State.fixed, Fixed.mk.injEq] at heq
    obtain ⟨h1, h2, h3, h4, -, h6, -⟩ := heq
    exact ⟨h1.trans hup, h2, h3, h4, h6⟩
  · simp [hup] at hdown
  · exact absurd hreset hact

/-! ### Other chain contexts -/

theorem step_chain (h : step s = .next t) : t.chain = s.chain := by
  cases ha : s.agenda with
  | nil => rw [← Host.Outcome.next.inj ((blockWithoutTurnsStands s ha).symm.trans h)]
  | cons x rest =>
    rcases step_cases ha h with hsteps | ⟨n, -, -, rfl⟩ | ⟨-, rfl⟩
    · exact congrArg Fixed.chain hsteps.fixed_eq
    · rfl
    · rfl

/-- What a step of chain context `k` can do. -/
theorem stepChain_eq_next {k : Nat} {chains later : List State} (h : stepChain k chains = .next later) :
    later = chains ∨ ∃ s t, chains[k]? = some s ∧ step s = .next t ∧ later = chains.set k t := by
  unfold stepChain at h
  split at h
  · exact .inl (Host.Outcome.next.inj h).symm
  · rename_i s hs
    split at h
    · rename_i t ht
      exact .inr ⟨s, t, hs, ht, (Host.Outcome.next.inj h).symm⟩
    · cases h
    · cases h

theorem stepChain_of_step {k : Nat} {chains : List State} (hs : chains[k]? = some s) (h : step s = .next t) :
    stepChain k chains = .next (chains.set k t) := by
  simp only [stepChain, hs, h]

/-- Settles O58: the product replaces one chain by its next state, which carries the same name. -/
theorem chainsAreIndependent : Obligations.ChainsAreIndependent := by
  refine ⟨fun n => ?_, fun k chains later h => ?_, fun k chains s t hs h => ?_⟩
  · have hnames : (chainsAtReset n).map State.chain = List.range n := by
      rw [chainsAtReset, List.map_map]
      exact List.map_id _
    exact hnames ▸ List.nodup_range
  · obtain rfl | ⟨s, t, hs, hst, rfl⟩ := stepChain_eq_next h
    · exact ⟨rfl, rfl, fun _ _ => rfl⟩
    · refine ⟨?_, List.length_set, fun j hj => List.getElem?_set_ne hj.symm⟩
      obtain ⟨hk, rfl⟩ := List.getElem?_eq_some_iff.mp hs
      rw [List.map_set, step_chain hst, ← List.getElem_map State.chain (h := by simpa using hk),
        List.set_getElem_self]
  · obtain ⟨hk, -⟩ := List.getElem?_eq_some_iff.mp hs
    exact ⟨_, stepChain_of_step hs h, List.getElem?_set_self hk⟩

end Sys2Proof.Machine
end

section
/-! Rules about all steps that compare a state with the next: phases only advance, the wire grows by one whole frame,
and only slot writes and bring-up change the buffer. -/

namespace Sys2Proof.Machine

variable {s t : State} {q : Nat}

/-! ### The acting request (10_state.md section 4) -/

/-- A named operation leaves the request list as it is, or writes its own request in a phase that is no earlier. -/
theorem SmallStep.reqs_cases (h : SmallStep q s t) :
    t.reqs = s.reqs ∨ ∃ r, t.reqs = Requests.set s.reqs q r ∧ (s.phase q).rank ≤ r.phase.rank := by
  obtain ⟨r, rfl⟩ | ⟨r, hrank, rfl⟩ | ⟨⟨-, hp⟩, rfl⟩ | ⟨a, vs, m, -, -, rfl⟩ | ⟨r, f, ⟨-, hp⟩, -, -, rfl⟩ |
    ⟨⟨-, hp⟩, rfl⟩ := h.effect
  · exact .inl rfl
  · exact .inr ⟨r, rfl, hrank⟩
  · exact .inr ⟨_, rfl, by simp [hp, Phase.rank]⟩
  · exact .inr ⟨_, rfl, le_rfl⟩
  · exact .inr ⟨_, rfl, by simp [hp, Phase.rank]⟩
  · exact .inr ⟨_, rfl, by simp [hp, Phase.rank]⟩

theorem SmallStep.request_of_ne (h : SmallStep q s t) {p : Nat} (hp : p ≠ q) : t.request p = s.request p := by
  rcases h.reqs_cases with h | ⟨r, h, -⟩
  · rw [State.request, h, State.request]
  · rw [State.request, h, Requests.get_set_ne _ _ hp, State.request]

theorem SmallStep.rank_le (h : SmallStep q s t) : (s.phase q).rank ≤ (t.phase q).rank := by
  rcases h.reqs_cases with h | ⟨r, h, hrank⟩
  · exact (congrArg (fun rs => (Requests.get rs q).phase.rank) h).ge
  · have hreq : t.request q = r := by rw [State.request, h, Requests.get_set_self]
    rwa [State.phase.eq_1 t, hreq]

theorem SmallSteps.request_of_ne (h : SmallSteps q s t) {p : Nat} (hp : p ≠ q) : t.request p = s.request p :=
  h.eq_of (f := fun u => u.request p) fun _ _ hstep => hstep.request_of_ne hp

theorem SmallSteps.rank_le (h : SmallSteps q s t) : (s.phase q).rank ≤ (t.phase q).rank := by
  induction h with
  | refl => exact le_rfl
  | tail _ hstep ih => exact ih.trans hstep.rank_le

/-- Settles O50: the named operations write the acting request only, in no earlier phase; a bring-up writes none. -/
theorem phasesOnlyAdvance : Obligations.PhasesOnlyAdvance := by
  intro s t x rest ha hact h
  rcases step_cases ha h with hsteps | ⟨n, -, -, rfl⟩ | ⟨hreset, -⟩
  · exact ⟨fun p hp => hsteps.request_of_ne hp, hsteps.rank_le⟩
  · exact ⟨fun _ _ => rfl, le_rfl⟩
  · exact absurd hreset hact

/-! ### The history of frames (20_memory.md R43, 42_composer.md R102) -/

theorem SmallStep.lock_cases (h : SmallStep q s t) : t.lock = s.lock ∨ s.lock = .free ∨ s.lock = .held q := by
  obtain ⟨r, rfl⟩ | ⟨r, -, rfl⟩ | ⟨⟨hfree, -⟩, rfl⟩ | ⟨a, vs, m, ⟨hheld, -⟩, -, rfl⟩ | ⟨r, f, ⟨hheld, -⟩, -, -, rfl⟩ |
    ⟨⟨hheld, -⟩, rfl⟩ := h.effect
  · exact .inl rfl
  · exact .inl rfl
  · exact .inr (.inl hfree)
  all_goals exact .inr (.inr hheld)

/-- A named operation hands no frame over, or it is the answer to the frame of a request in SEND. -/
theorem SmallStep.wire_cases (h : SmallStep q s t) :
    t.wire = s.wire ∨ ∃ r f, s.holdsIn q .send ∧ s.tx = some r ∧ (s.request q).frame = some f ∧
      t.wire = s.wire ++ [⟨q, f, r⟩] ∧ t.contents = s.contents ∧ t.phase q = .rel := by
  obtain ⟨r, rfl⟩ | ⟨r, -, rfl⟩ | ⟨-, rfl⟩ | ⟨a, vs, m, -, -, rfl⟩ | ⟨r, f, hsend, htx, hframe, rfl⟩ | ⟨-, rfl⟩ :=
    h.effect
  case inr.inr.inr.inr.inl => exact .inr ⟨r, f, hsend, htx, hframe, rfl, rfl, State.phase_setRequest_self ..⟩
  all_goals exact .inl rfl

/-- Only a request in HELD writes to the buffer. -/
theorem SmallStep.contents_of_not_held (h : SmallStep q s t) (hp : s.phase q ≠ .held) : t.contents = s.contents := by
  obtain ⟨r, rfl⟩ | ⟨r, -, rfl⟩ | ⟨-, rfl⟩ | ⟨a, vs, m, ⟨-, hheld⟩, -⟩ | ⟨r, f, -, -, -, rfl⟩ | ⟨-, rfl⟩ := h.effect
  case inr.inr.inr.inl => exact absurd hheld hp
  all_goals rfl

/-- The frame of a request in SEND is the whole buffer between the pads. -/
theorem State.Inv.frame_of_send (hI : s.Inv) (hp : s.phase q = .send) :
    (s.request q).frame = some (padFrame s.contents) := by
  obtain ⟨-, -, -, hsend, -, -⟩ := Request.fits_of_phase (hI.fits q)
  obtain ⟨l, -, hr⟩ := hsend hp
  rw [hr]

/-- From `s` to `t` no frame is handed over, and the lock that request `q` does not find free or its own stays as it
is. -/
def NothingHandedOver (q : Nat) (s t : State) : Prop :=
  t.wire = s.wire ∧ (t.lock = s.lock ∨ s.lock = .free ∨ s.lock = .held q)

/-- From `s` to `t` request `q` hands its frame over, the whole buffer as it stands, and goes on from SEND. -/
def HandedOver (q : Nat) (s t : State) : Prop :=
  (s.lock = .free ∨ s.lock = .held q) ∧ Phase.rel.rank ≤ (t.phase q).rank ∧
    ∃ r, s.tx = some r ∧ t.wire = s.wire ++ [⟨q, padFrame t.contents, r⟩]

variable {u : State}

/-- Nothing handed over so far: the next operation may be the answer to the frame. -/
theorem NothingHandedOver.next (h : NothingHandedOver q s t) (hI : t.Inv) (htx : t.tx = s.tx)
    (hstep : SmallStep q t u) : NothingHandedOver q s u ∨ HandedOver q s u := by
  obtain ⟨hwire, hlock⟩ := h
  rcases hstep.wire_cases with hkeep | ⟨r, f, hsend, hr, hframe, happ, hcont, hrel⟩
  · refine .inl ⟨hkeep.trans hwire, ?_⟩
    rcases hlock with hlock | hlock
    · exact hlock ▸ hstep.lock_cases
    · exact .inr hlock
  · rw [hI.frame_of_send hsend.2, Option.some.injEq] at hframe
    refine .inr ⟨?_, by rw [hrel], r, htx ▸ hr, by rw [happ, hwire, ← hframe, hcont]⟩
    rcases hlock with hlock | hlock
    · exact .inr (hlock ▸ hsend.1)
    · exact hlock

/-- After its frame a request neither sends again nor writes to the buffer. -/
theorem HandedOver.next (h : HandedOver q s t) (hstep : SmallStep q t u) : HandedOver q s u := by
  obtain ⟨hlock, hrank, r, htx, hwire⟩ := h
  have hgone : ∀ ph : Phase, ph.rank < Phase.rel.rank → t.phase q ≠ ph := by
    rintro _ hlt rfl
    exact absurd hrank (Nat.not_le.mpr hlt)
  have hkeep : u.wire = t.wire := by
    rcases hstep.wire_cases with hkeep | ⟨-, -, hsend, -⟩
    · exact hkeep
    · exact absurd hsend.2 (hgone _ (by decide))
  have hcont : u.contents = t.contents := hstep.contents_of_not_held (hgone _ (by decide))
  exact ⟨hlock, hrank.trans hstep.rank_le, r, htx, by rw [hkeep, hwire, hcont]⟩

theorem SmallSteps.handedOver_cases (h : SmallSteps q s t) (hI : s.Inv) :
    NothingHandedOver q s t ∨ HandedOver q s t := by
  induction h with
  | refl => exact .inl ⟨rfl, .inl rfl⟩
  | tail hsteps hstep ih =>
    rcases ih with hno | hone
    · exact hno.next (SmallSteps.keep_inv hsteps hI) (congrArg Fixed.tx (SmallSteps.fixed_eq hsteps)) hstep
    · exact .inr (hone.next hstep)

/-- Settles O51: a sequence of the acting request's operations hands over at most one frame, and a bring-up none. -/
theorem wireGrowsByOneWholeFrame : Obligations.WireGrowsByOneWholeFrame := by
  intro s t x rest hI ha hact h
  rcases step_cases ha h with hsteps | ⟨n, -, -, rfl⟩ | ⟨hreset, -⟩
  · rcases hsteps.handedOver_cases (hI.beginTurn x rest) with ⟨hwire, -⟩ | ⟨hlock, -, r, htx, hwire⟩
    · exact .inl hwire
    · exact .inr ⟨r, htx, hwire, hlock⟩
  · exact .inl rfl
  · exact absurd hreset hact

/-! ### The buffer (41_buffer.md section 2) -/

@[simp] theorem acquire_buf (s : State) (q : Nat) : (acquire s q).buf = s.buf := by
  unfold acquire; split <;> rfl

@[simp] theorem latchPixel_buf (s : State) (q : Nat) : (latchPixel s q).buf = s.buf := by
  unfold latchPixel
  split
  · split <;> rfl
  · rfl

@[simp] theorem beginWrite_buf (s : State) (q : Nat) : (beginWrite s q).buf = s.buf := by
  unfold beginWrite; split <;> rfl

@[simp] theorem takeAnswer_buf (s : State) (q : Nat) : (takeAnswer s q).buf = s.buf := by
  rcases takeAnswer_cases s q with h | ⟨r, f, -, -, -, h⟩ <;> simp [h]

@[simp] theorem release_buf (s : State) (q : Nat) : (release s q).buf = s.buf := by
  unfold release; split <;> rfl

theorem composeFrame_buf (h : composeFrame s q = .next t) : t.buf = s.buf := by
  obtain rfl | ⟨bs, -, -, rfl⟩ := composeFrame_eq_next h <;> rfl

theorem buf_of_answers {u : State} {r : Result} (hu : u.buf = s.buf) (h : (.next (u.answers r) : Step) = .next t) :
    t.buf = s.buf := by
  cases h
  exact hu

/-- Settles O19: the operations that act on the lock, the frame, the wire or `px` leave the buffer, and the others only
answer. -/
theorem onlySlotWritesAndBringupChangeTheBuffer : Obligations.OnlySlotWritesAndBringupChangeTheBuffer := by
  intro i s t h hslot hupdate hbringup
  cases i with
  | slotWr => exact absurd rfl hslot
  | update led ch0 ch1 ch2 => exact absurd rfl (hupdate led ch0 ch1 ch2)
  | bringup n c b found => exact absurd rfl (hbringup n c b found)
  | encPx ch0 ch1 ch2 =>
    rcases exec_encPx ch0 ch1 ch2 s with ⟨r, he⟩ | ⟨r, he⟩
    · exact buf_of_answers rfl (he.symm.trans h)
    · exact buf_of_answers (latchPixel_buf s _) (he.symm.trans h)
  | bufRd =>
    rcases exec_bufRd s with ⟨r, he⟩ | ⟨-, he⟩
    · exact buf_of_answers rfl (he.symm.trans h)
    · cases he.symm.trans h
  | compose =>
    obtain ⟨r, he⟩ := exec_compose s
    obtain ⟨u, hu, h⟩ := andThen_eq_next (he.symm.trans h)
    exact buf_of_answers (composeFrame_buf hu) h
  | xmit =>
    obtain ⟨r, he⟩ := exec_xmit s
    exact buf_of_answers (by simp) (he.symm.trans h)
  | lockAcq =>
    obtain ⟨r, he⟩ := exec_lockAcq s
    exact buf_of_answers (acquire_buf s _) (he.symm.trans h)
  | lockRel =>
    obtain ⟨r, he⟩ := exec_lockRel s
    exact buf_of_answers (release_buf s _) (he.symm.trans h)
  | _ => exact buf_of_answers rfl h

end Sys2Proof.Machine
end

section
/-! Rules about the states of the invariant: no step faults, the lock is free at the end of a run, and a hang is an
unanswered write (20_memory.md R40, 43_update.md R113, 70_reset_and_hazards.md R163). -/

namespace Sys2Proof.Machine

variable {s t : State} {q : Nat}

/-! ### No fault (20_memory.md section 1) -/

theorem work_of_not_held (h : ¬ s.holdsIn q .held) : work s q = .next s := by
  rw [work, latchPixel_of_not_holder h, writeSlot_of_not_holder h, andThen_next,
    composeFrame_of_not_enabled fun hcan => h hcan.1, andThen_next, beginWrite_of_not_enabled fun hcan => h hcan.1]

theorem State.Inv.work_next (hI : s.Inv) (q : Nat) : ∃ t, Machine.work s q = .next t := by
  by_cases h : s.holdsIn q .held
  · obtain ⟨l, m, -, -, -, hwork⟩ := hI.work_eq h
    exact ⟨_, hwork⟩
  · exact ⟨s, work_of_not_held h⟩

theorem State.Inv.writeSlot_next (hI : s.Inv) (q : Nat) : ∃ t, Machine.writeSlot s q = .next t := by
  by_cases h : s.canWriteSlot q
  · obtain ⟨hheld, -, hpx⟩ := h
    obtain ⟨p, hp⟩ := Option.isSome_iff_exists.mp hpx
    obtain ⟨l, hl, hreq, -⟩ := Request.fits_held (hI.fits q) hheld.2
    obtain ⟨m, hm⟩ := hI.slot_writable hl p
    exact ⟨_, writeSlot_of_enabled hheld hreq hp hm⟩
  · exact ⟨s, writeSlot_of_not_enabled h⟩

theorem State.Inv.composeFrame_next (hI : s.Inv) (q : Nat) : ∃ t, Machine.composeFrame s q = .next t := by
  by_cases h : s.canCompose q
  · exact ⟨_, composeFrame_of_enabled h hI.wholeBuffer_eq⟩
  · exact ⟨s, composeFrame_of_not_enabled h⟩

theorem State.Inv.runRequest_next (hI : s.Inv) (q : Nat) : ∃ t, Machine.runRequest s q = .next t := by
  obtain ⟨u, hu⟩ := ((hI.checkFrame q).acquire q).work_next q
  exact ⟨_, by rw [Machine.runRequest, hu, andThen_next]⟩

theorem State.Inv.advance_next (hI : s.Inv) (q : Nat) : ∃ t, Machine.advance s q = .next t := by
  unfold Machine.advance
  split
  case h_5 =>
    obtain ⟨u, hu⟩ := hI.work_next q
    exact ⟨_, by rw [hu, andThen_next]⟩
  all_goals exact ⟨_, rfl⟩

theorem State.Inv.update_next (hI : s.Inv) (led : Nat) (ch0 ch1 ch2 : Byte) :
    ∃ t, exec (.update led ch0 ch1 ch2) s = .next t := by
  change ∃ t, execUpdate led ch0 ch1 ch2 s = .next t
  unfold execUpdate
  split
  · rename_i u hmade
    exact (hI.invoke hmade).runRequest_next s.agent
  · exact ⟨_, rfl⟩

theorem exec_bringup_next (n c b found : Nat) (s : State) : ∃ t, exec (.bringup n c b found) s = .next t := by
  change ∃ t, execBringup n c b found s = .next t
  unfold execBringup
  split_ifs <;> exact ⟨_, rfl⟩

/-- In a state of the invariant every operation of the table answers a next state. -/
theorem State.Inv.exec_next (hI : s.Inv) (i : Instr) : ∃ t, exec i s = .next t := by
  cases i with
  | encPx ch0 ch1 ch2 =>
    obtain ⟨rs, he, -⟩ := pixelEncoderOrdersGreenRedBlue ch0 ch1 ch2 s
    exact ⟨_, he⟩
  | slotWr =>
    obtain ⟨r, he⟩ := exec_slotWr s
    obtain ⟨u, hu⟩ := hI.writeSlot_next s.agent
    exact ⟨_, by rw [he, hu, andThen_next]⟩
  | bufRd =>
    rcases exec_bufRd s with ⟨r, he⟩ | ⟨hnone, -⟩
    · exact ⟨_, he⟩
    · simp [hI.wholeBuffer_eq] at hnone
  | compose =>
    obtain ⟨r, he⟩ := exec_compose s
    obtain ⟨u, hu⟩ := hI.composeFrame_next s.agent
    exact ⟨_, by rw [he, hu, andThen_next]⟩
  | xmit =>
    obtain ⟨r, he⟩ := exec_xmit s
    exact ⟨_, he⟩
  | lockAcq =>
    obtain ⟨r, he⟩ := exec_lockAcq s
    exact ⟨_, he⟩
  | lockRel =>
    obtain ⟨r, he⟩ := exec_lockRel s
    exact ⟨_, he⟩
  | update led ch0 ch1 ch2 => exact hI.update_next led ch0 ch1 ch2
  | bringup n c b found => exact exec_bringup_next n c b found s
  | _ => exact ⟨_, rfl⟩

theorem Step.ne_fault_of_next {o : Step} (h : ∃ t, o = .next t) (r : Fault) : o ≠ .fault r := by
  obtain ⟨t, rfl⟩ := h
  simp

/-- What an agent does in its turn answers a next state, or is refused: bits that no port takes, and a reset during a
request. -/
theorem State.Inv.act_ne_fault (hI : s.Inv) (a : Act) (r : Fault) : act a s ≠ .fault r := by
  cases a with
  | present m =>
    cases hdec : decode m with
    | ok i =>
      rw [act, present_of_decode hdec]
      exact Step.ne_fault_of_next (hI.exec_next i) r
    | error e => simp [act, present, hdec]
  | invoke led ch0 ch1 ch2 =>
    rw [act]
    split <;> simp
  | advance => exact Step.ne_fault_of_next (hI.advance_next s.agent) r
  | reset =>
    rw [act, resetEvent]
    split <;> simp

/-- Settles O48: neither the standing block nor an act of a turn faults. -/
theorem noStepAddressesOutsideTheBuffer : Obligations.NoStepAddressesOutsideTheBuffer := by
  intro s r hI
  cases ha : s.agenda with
  | nil => exact Step.ne_fault_of_next ⟨s, blockWithoutTurnsStands s ha⟩ r
  | cons x rest =>
    rw [step_of_turn ha]
    exact (hI.beginTurn x rest).act_ne_fault x.act r

/-! ### The lock (43_update.md section 2) -/

theorem State.Inv.not_held_of_phase (hI : s.Inv) (h : (s.phase q).holdsLock = false) : s.lock ≠ .held q := by
  intro hlock
  rw [(hI.holder q).mp hlock] at h
  cases h

theorem State.exists_holder (h : s.lock ≠ .free) : ∃ p, s.lock = .held p := by
  cases hl : s.lock with
  | free => exact absurd hl h
  | held p => exact ⟨p, rfl⟩

theorem Phase.holdsLock_iff {ph : Phase} : ph.holdsLock = true ↔ ph = .held ∨ ph = .send ∨ ph = .rel := by
  cases ph <;> simp [Phase.holdsLock]

/-- Settles O53: the holder is in HELD, SEND or REL, so it is not DONE, and no run has ended that has one. -/
theorem noRequestEndsHoldingTheLock : Obligations.NoRequestEndsHoldingTheLock := by
  intro s hI
  have hdone : ∀ q, s.phase q = .done → s.lock ≠ .held q := fun q hq => hI.not_held_of_phase (by rw [hq]; rfl)
  refine ⟨hdone, fun hend => ?_⟩
  by_contra hlock
  obtain ⟨p, hp⟩ := State.exists_holder hlock
  refine hdone p (hend p fun hidle => ?_) hp
  exact hI.not_held_of_phase (by rw [hidle]; rfl) hp

/-! ### A hang (70_reset_and_hazards.md R163) -/

/-- Where no request's agent can step, some request holds the lock in SEND. -/
theorem State.Inv.sender_of_blocked (hI : s.Inv) (h : s.requestsBlocked) :
    ∃ p, s.lock = .held p ∧ s.phase p = .send := by
  obtain ⟨⟨q, hq⟩, hstuck⟩ := h
  have hlocked : s.lock ≠ .free := by
    rcases hq with hwait | hsend
    · have hq := hstuck q
      simpa [State.canMoveInSilence, hwait] using hq
    · intro hfree
      have hheld := (hI.holder q).mpr (by rw [hsend]; rfl)
      rw [hfree] at hheld
      cases hheld
  obtain ⟨p, hp⟩ := State.exists_holder hlocked
  refine ⟨p, hp, ?_⟩
  have hmove := hstuck p
  rcases Phase.holdsLock_iff.mp ((hI.holder p).mp hp) with h | h | h
  · simp [State.canMoveInSilence, h] at hmove
  · exact h
  · simp [State.canMoveInSilence, h] at hmove

theorem State.chainView_of_sender {p : Nat} (hlock : s.lock = .held p) (hp : s.phase p = .send) :
    s.chainView = .unknown := by
  have hflight : s.writeInFlight = true := by simp [State.writeInFlight, hlock, hp]
  simp only [State.chainView, hflight, if_true]

theorem advance_of_idle_or_done (h : s.phase q = .idle ∨ s.phase q = .done) :
    advance s q = .next (s.answers .noStep) := by
  rcases h with h | h <;> simp only [advance, h]

theorem advance_of_wait (h : s.phase q = .wait) : advance s q = .next ((acquire s q).reporting q) := by
  simp only [advance, h]

/-- A request that can only go on with an answer of the transport, and gets none, only answers. -/
theorem advance_of_stuck (hmove : s.canMoveInSilence q = false) (htx : s.phase q = .send → s.tx = none) :
    ∃ r, advance s q = .next (s.answers r) := by
  cases hp : s.phase q with
  | idle => exact ⟨_, advance_of_idle_or_done (.inl hp)⟩
  | done => exact ⟨_, advance_of_idle_or_done (.inr hp)⟩
  | wait =>
    have hlocked : s.lock ≠ .free := by simpa [State.canMoveInSilence, hp] using hmove
    have hno : ¬ s.canAcquire q := fun hcan => hlocked hcan.1
    exact ⟨_, (advance_of_wait hp).trans (by rw [acquire_of_not_enabled hno, State.reporting_eq])⟩
  | send => exact ⟨_, (advance_of_send hp).trans (by rw [takeAnswer_of_silence (htx hp), State.reporting_eq])⟩
  | check | held | rel => simp [State.canMoveInSilence, hp] at hmove

theorem step_of_stuck {x : Turn} {rest : List Turn} (ha : s.agenda = x :: rest) (hact : x.act = .advance)
    (hmove : s.canMoveInSilence x.agent = false) (htx : s.phase x.agent = .send → x.tx = none) :
    ∃ r, step s = .next ((s.beginTurn x rest).answers r) := by
  rw [step_of_advance ha hact]
  exact advance_of_stuck (s := s.beginTurn x rest) hmove htx

/-- The holder in SEND takes the turn's answer and goes on to REL, from where it can step by itself. -/
theorem State.Inv.step_of_answer (hI : s.Inv) {x : Turn} {rest : List Turn} {r : TransportAnswer}
    (ha : s.agenda = x :: rest) (hact : x.act = .advance) (hp : s.phase x.agent = .send) (htx : x.tx = some r) :
    ∃ t, step s = .next t ∧ t.phase x.agent = .rel := by
  have hlock : s.lock = .held x.agent := (hI.holder _).mpr (by rw [hp]; rfl)
  rw [step_of_advance ha hact,
    advance_of_send_answer (s := s.beginTurn x rest) ⟨hlock, hp⟩ htx (hI.frame_of_send hp)]
  exact ⟨_, rfl, State.phase_setRequest_self ..⟩

/-- Settles O54: where no request can step by itself, only the answer to the holder in SEND changes the block, and a
hang is where no turn to come has one. -/
theorem hangIsAnUnansweredWrite : Obligations.HangIsAnUnansweredWrite := by
  refine fun s hI => ⟨fun hblocked => ?_, fun ⟨hblocked, hsilent⟩ x rest ha hact => ?_⟩
  · obtain ⟨p, hlock, hp⟩ := hI.sender_of_blocked hblocked
    refine ⟨⟨p, hlock, hp⟩, State.chainView_of_sender hlock hp, fun x rest ha hact => ⟨fun htx => ?_, ?_⟩⟩
    · obtain ⟨r, hr⟩ := step_of_stuck ha hact (hblocked.2 x.agent) fun _ => htx
      exact ⟨_, hr, rfl⟩
    · intro r htx hsend
      obtain ⟨t, ht, hrel⟩ := hI.step_of_answer ha hact hsend htx
      refine ⟨fun hhung => ?_, t, ht, hrel, fun hstill => ?_⟩
      · have hnone := hhung.2 x (by simp [ha]) hsend
        rw [htx] at hnone
        cases hnone
      · have hmove := hstill.2 x.agent
        simp [State.canMoveInSilence, hrel] at hmove
  · obtain ⟨r, hr⟩ := step_of_stuck ha hact (hblocked.2 x.agent) (hsilent x (by simp [ha]))
    exact ⟨_, hr, rfl, hblocked, fun y hy => hsilent y (by rw [ha]; exact List.mem_cons_of_mem x hy)⟩

end Sys2Proof.Machine
end

section
/-! Proofs about what the slots hold (41_buffer.md sections 2 and 3, 20_memory.md R41): a slot write is read back in its
own slot and in no other, so after a sequence of critical sections a slot holds the pixel of the latest one for it. -/

namespace Sys2Proof.Machine

variable {s : State} {q : Nat}

/-! ### Reading several bytes -/

theorem Memory.readBytes_of_reads {m : Memory} {a n : Nat} {bs : List Byte} (hlen : bs.length = n)
    (h : ∀ j < n, m.read (a + j) = bs[j]?) : m.readBytes a n = some bs := by
  obtain ⟨cs, hcs⟩ := Memory.readBytes_isSome n m a fun j hj =>
    (Memory.read_isSome m _).mp (by rw [h j hj]; simp [hlen, hj])
  obtain ⟨hclen, hread⟩ := Memory.readBytes_spec n hcs
  rw [hcs]
  congr 1
  refine List.ext_getElem? fun j => ?_
  by_cases hj : j < n
  · rw [hread j hj, h j hj]
  · rw [List.getElem?_eq_none (by omega), List.getElem?_eq_none (by omega)]

theorem Memory.readBytes_congr {m m' : Memory} {a : Nat} (n : Nat)
    (h : ∀ j < n, m.read (a + j) = m'.read (a + j)) : m.readBytes a n = m'.readBytes a n := by
  induction n generalizing a with
  | zero => rfl
  | succ n ih =>
    have htail : m.readBytes (a + 1) n = m'.readBytes (a + 1) n := ih fun j hj => by
      have hj1 := h (j + 1) (by omega)
      rwa [show a + (j + 1) = a + 1 + j by omega] at hj1
    have hhead : m.read a = m'.read a := h 0 (by omega)
    simp only [Memory.readBytes, hhead, htail]

theorem Memory.readBytes_append {m : Memory} {a n k : Nat} {bs cs : List Byte} (hb : m.readBytes a n = some bs)
    (hc : m.readBytes (a + n) k = some cs) : m.readBytes a (n + k) = some (bs ++ cs) := by
  obtain ⟨hblen, hbread⟩ := Memory.readBytes_spec n hb
  obtain ⟨hclen, hcread⟩ := Memory.readBytes_spec k hc
  refine Memory.readBytes_of_reads (by rw [List.length_append, hblen, hclen]) fun j hj => ?_
  by_cases hjn : j < n
  · rw [List.getElem?_append_left (by omega), hbread j hjn]
  · rw [List.getElem?_append_right (by omega), hblen, hcread (j - n) (by omega)]
    congr 1
    omega

/-! ### One slot write -/

section
variable {m m' : Memory} {i : Nat} {p : EncodedPixel} (h : m.writeBytes (slotAddress i) p.bytes = some m')
include h

theorem Memory.readBytes_written_slot : m'.readBytes (9 * i) 9 = some p.bytes :=
  Memory.readBytes_of_reads p.length_bytes fun _ hj => Memory.read_in_written_slot h hj

theorem Memory.readBytes_other_slot {k : Nat} (hk : k ≠ i) : m'.readBytes (9 * k) 9 = m.readBytes (9 * k) 9 :=
  Memory.readBytes_congr 9 fun j hj => Memory.read_outside_written_slot h (by omega)

end

/-! ### A sequence of critical sections -/

theorem writeSection_of_write {m m' : Memory} {c : CriticalSection}
    (h : Memory.writeBytes m (slotAddress c.req.led) c.req.pixel.bytes = some m') : writeSection m c = m' := by
  rw [writeSection, h, Option.getD_some]

theorem Memory.slot_writable {m : Memory} {n i : Nat} (ha : m.map Prod.fst = List.range (9 * n)) (hi : i < n)
    (p : EncodedPixel) : ∃ m', m.writeBytes (slotAddress i) p.bytes = some m' := by
  refine Memory.writeBytes_isSome _ _ _ fun j hj => ?_
  rw [EncodedPixel.length_bytes] at hj
  rw [ha, List.mem_range, slotAddress_eq]
  omega

theorem replay_concat (m : Memory) (cs : List CriticalSection) (c : CriticalSection) :
    replay m (cs ++ [c]) = writeSection (replay m cs) c := by
  rw [replay_append]
  rfl

/-- After the slot writes of `cs` a slot holds the pixel of the latest of them for its position, or what it held. -/
theorem readBytes_replay {m : Memory} {n : Nat} (ha : m.map Prod.fst = List.range (9 * n)) (i : Nat)
    (cs : List CriticalSection) (hcs : ∀ c ∈ cs, c.req.led < n) :
    Memory.readBytes (replay m cs) (9 * i) 9 =
      match (cs.filter fun c => c.req.led == i).getLast? with
      | some c => some c.req.pixel.bytes
      | none => Memory.readBytes m (9 * i) 9 := by
  induction cs using List.reverseRecOn with
  | nil => rfl
  | append_singleton cs c ih =>
    obtain ⟨m', hm'⟩ := Memory.slot_writable (m := replay m cs) (by rw [replay_addresses, ha]) (hcs c (by simp))
      c.req.pixel
    rw [replay_concat, writeSection_of_write hm', List.filter_append]
    by_cases hc : c.req.led = i
    · subst hc
      simp [Memory.readBytes_written_slot hm']
    · rw [Memory.readBytes_other_slot hm' (Ne.symm hc), ih fun c' hc' => hcs c' (List.mem_append_left _ hc')]
      simp [hc]

/-! ### The slots of a state of the invariant -/

theorem State.mem_order_of_committed {c : CriticalSection} (h : c ∈ s.committed) : c ∈ s.order := by
  unfold State.committed at h
  split at h
  · exact h
  · split at h
    · exact h
    · exact List.mem_of_mem_dropLast h

theorem State.Inv.resetBuffer_addresses (hI : s.Inv) : s.resetBuffer.map Prod.fst = List.range (9 * s.chips) := by
  rw [State.resetBuffer, Memory.fresh_addresses, hI.bufLength_eq, List.range_eq_range']

/-- Settles O20: the buffer is the replay of the committed sections. -/
theorem slotHoldsTheLatestPixel : Obligations.SlotHoldsTheLatestPixel := by
  intro s i hI _
  conv_lhs => rw [hI.buffer]
  exact readBytes_replay hI.resetBuffer_addresses i s.committed fun c hc =>
    (hI.sections c (State.mem_order_of_committed hc)).1

/-- The slot of the holder, once written, holds its pixel. -/
theorem State.Inv.holder_slot (hI : s.Inv) (hlock : s.lock = .held q) {l : ReqLatch}
    (hreq : (s.request q).req = some l) (hdone : (s.request q).slotDone = true) :
    Memory.readBytes s.buf (9 * l.led) 9 = some l.pixel.bytes := by
  have horder := hI.order_of_holder hlock hreq
  have hmem : (⟨q, l⟩ : CriticalSection) ∈ s.order := by rw [horder]; simp
  have hcommitted : s.committed = s.order := by simp only [State.committed, hlock, hdone, if_true]
  rw [slotHoldsTheLatestPixel s l.led hI (hI.sections _ hmem).1, hcommitted, horder]
  simp

/-- Settles O17: the read answers the whole buffer in address order, and the reader's slot is in it. -/
theorem bufferReadAnswersTheWholeBuffer : Obligations.BufferReadAnswersTheWholeBuffer := by
  intro s hlock haddr
  obtain ⟨bs, hb⟩ := State.wholeBuffer_isSome haddr
  obtain ⟨hlen, hread⟩ := State.wholeBuffer_spec hb
  refine ⟨bs, exec_bufRd_of_holder hlock hb, hlen, hread, fun l hI hreq hdone j hj => ?_⟩
  have hmem : (⟨s.agent, l⟩ : CriticalSection) ∈ s.order := by rw [hI.order_of_holder hlock hreq]; simp
  have hled : l.led < s.chips := (hI.sections _ hmem).1
  have hin : 9 * l.led + j < s.bufLength := by
    rw [hI.bufLength_eq]
    simp only [Config.slotBytes]
    omega
  obtain ⟨-, hslot⟩ := Memory.readBytes_spec 9 (hI.holder_slot hlock hreq hdone)
  rw [hread _ hin, hslot j hj]

/-! ### Once every slot is written (70_reset_and_hazards.md section 2) -/

/-- A buffer whose slots hold pixels of their positions is these pixels in order. -/
theorem Memory.readBytes_pixels {m : Memory} (n : Nat)
    (h : ∀ i < n, ∃ l : ReqLatch, l.led = i ∧ m.readBytes (9 * i) 9 = some l.pixel.bytes) :
    ∃ ls : List ReqLatch, ls.length = n ∧ (∀ (i : Nat) (l : ReqLatch), ls[i]? = some l → l.led = i) ∧
      m.readBytes 0 (9 * n) = some (ls.flatMap fun l => l.pixel.bytes) := by
  induction n with
  | zero => exact ⟨[], rfl, by simp, rfl⟩
  | succ n ih =>
    obtain ⟨ls, hlen, hled, hread⟩ := ih fun i hi => h i (by omega)
    obtain ⟨l, hl, hlast⟩ := h n (by omega)
    refine ⟨ls ++ [l], by simp [hlen], fun i l' hl' => ?_, ?_⟩
    · rw [List.getElem?_append] at hl'
      split at hl'
      · exact hled i l' hl'
      · obtain ⟨hi, rfl⟩ : i - ls.length = 0 ∧ l = l' := by simpa [List.getElem?_singleton] using hl'
        omega
    · rw [Nat.mul_succ, List.flatMap_append, List.flatMap_singleton]
      exact Memory.readBytes_append hread (by rwa [Nat.zero_add])

/-- A frame that a request has composed is the whole buffer between the pads. -/
theorem Request.frame_of_fits {n : Nat} {now f : List Byte} {r : Request} (h : r.fits n now)
    (hf : r.frame = some f) : f = padFrame now := by
  unfold Request.fits at h
  split at h
  · subst h; cases hf
  · obtain ⟨l, -, rfl⟩ := h; cases hf
  · obtain ⟨l, -, rfl⟩ := h; cases hf
  · obtain ⟨l, -, -, -, -, hframe, -⟩ := h; exact (hframe f hf).2
  · obtain ⟨l, -, rfl⟩ := h; exact (Option.some.inj hf).symm
  · obtain ⟨l, a, -, rfl⟩ := h; exact (Option.some.inj hf).symm
  · obtain ⟨st, rfl⟩ := h; cases hf

theorem State.Inv.written_slot (hI : s.Inv) {i : Nat} (hi : i < s.chips) (h : ∃ c ∈ s.committed, c.req.led = i) :
    ∃ l : ReqLatch, l.led = i ∧ Memory.readBytes s.buf (9 * i) 9 = some l.pixel.bytes := by
  obtain ⟨c0, hc0, hled0⟩ := h
  have hslot := slotHoldsTheLatestPixel s i hI hi
  cases hlast : (s.committed.filter fun c => c.req.led == i).getLast? with
  | none =>
    have hnone := List.getLast?_eq_none_iff.mp hlast
    have hin : c0 ∈ s.committed.filter fun c => c.req.led == i := List.mem_filter.mpr ⟨hc0, by simp [hled0]⟩
    rw [hnone] at hin
    simp at hin
  | some c =>
    have hc := (List.mem_filter.mp (List.mem_of_getLast? hlast)).2
    exact ⟨c.req, by simpa using hc, by rw [hslot, hlast]⟩

/-- Settles O55: every slot holds a pixel of its position, and a frame is the buffer between the pads. -/
theorem framesAreValidOnceEverySlotIsWritten : Obligations.FramesAreValidOnceEverySlotIsWritten := by
  intro s hI hall
  obtain ⟨ls, hlen, hled, hread⟩ := Memory.readBytes_pixels s.chips fun i hi => hI.written_slot hi (hall i hi)
  have hcontents : s.contents = ls.flatMap fun l => l.pixel.bytes := by
    have hwhole := hI.wholeBuffer_eq
    rw [State.wholeBuffer, hI.bufLength_eq] at hwhole
    exact Option.some.inj (hwhole.symm.trans hread)
  refine ⟨ls, hlen, hled, hcontents, fun q f hf => ?_⟩
  rw [Request.frame_of_fits (hI.fits q) hf, padFrame_eq, hcontents]

end Sys2Proof.Machine
end

section
/-! What the named operations do not see. A change of the state that keeps what they read and commutes with what they
write (`Transparent`) commutes with each of them. Two such changes are another schedule with its acting request and
answer, and another history before `wire`; that no operation reads the history is the second. -/

namespace Sys2Proof.Machine

/-- A change of the state that the named operations of Machine/Ops.lean do not see. -/
structure Transparent (F : State → State) : Prop where
  up : ∀ s, (F s).up = s.up
  topo : ∀ s, (F s).topo = s.topo
  endpoints : ∀ s, (F s).endpoints = s.endpoints
  buf : ∀ s, (F s).buf = s.buf
  lock : ∀ s, (F s).lock = s.lock
  reqs : ∀ s, (F s).reqs = s.reqs
  alloc : ∀ s, (F s).alloc = s.alloc
  tx : ∀ s, (F s).tx = s.tx
  setRequest : ∀ s q r, F (s.setRequest q r) = (F s).setRequest q r
  setLock : ∀ s l, F (s.setLock l) = (F s).setLock l
  setBuf : ∀ s m, F (s.setBuf m) = (F s).setBuf m
  appendWire : ∀ s w, F (s.appendWire w) = (F s).appendWire w
  appendOrder : ∀ s cs, F (s.appendOrder cs) = (F s).appendOrder cs

/-- The change `F` of the next state, where there is one. -/
def mapNext (F : State → State) (o : Step) : Step := andThen o fun t => .next (F t)

@[simp] theorem mapNext_next (F : State → State) (s : State) : mapNext F (.next s) = .next (F s) := rfl

theorem andThen_mapNext {F : State → State} {o : Step} {f g : State → Step} (h : ∀ u, g (F u) = mapNext F (f u)) :
    andThen (mapNext F o) g = mapNext F (andThen o f) := by
  cases o with
  | next u => exact h u
  | fault r => rfl
  | refused r => rfl

namespace Transparent

variable {F : State → State} (hF : Transparent F) (s : State) (q : Nat)
include hF

theorem request : (F s).request q = s.request q := congrArg (Requests.get · q) (hF.reqs s)

theorem phase : (F s).phase q = s.phase q := congrArg Request.phase (hF.request s q)

theorem report : (F s).report q = s.report q := by simp only [State.report, hF.phase, hF.request]

theorem wholeBuffer : (F s).wholeBuffer = s.wholeBuffer := by
  simp only [State.wholeBuffer, State.bufLength, hF.topo, hF.buf]

theorem holdsIn (ph : Phase) : (F s).holdsIn q ph ↔ s.holdsIn q ph := by
  simp only [State.holdsIn, hF.lock, hF.phase]

theorem endRequest (st : Option Status) : F (s.endRequest q st) = (F s).endRequest q st := hF.setRequest _ _ _

theorem invoke (led : Nat) (ch0 ch1 ch2 : Byte) :
    Machine.invoke (F s) q led ch0 ch1 ch2 = (Machine.invoke s q led ch0 ch1 ch2).map F := by
  simp only [Machine.invoke, hF.up, hF.phase, hF.endpoints]
  split
  · cases s.endpoints[led]? with
    | none => rfl
    | some ep => simp only [Option.map_some, hF.setRequest]
  · rfl

theorem checkFrame : Machine.checkFrame (F s) q = F (Machine.checkFrame s q) := by
  simp only [Machine.checkFrame, hF.phase, hF.alloc, hF.request]
  split
  · cases effectiveAlloc s.alloc with
    | ok => exact (hF.setRequest _ _ _).symm
    | fail => exact (hF.endRequest _ _ _).symm
  · rfl

theorem acquire : Machine.acquire (F s) q = F (Machine.acquire s q) := by
  simp only [Machine.acquire, State.canAcquire, hF.lock, hF.phase, hF.request]
  split
  · rw [hF.appendOrder, hF.setLock, hF.setRequest]
  · rfl

theorem latchPixel : Machine.latchPixel (F s) q = F (Machine.latchPixel s q) := by
  simp only [Machine.latchPixel, hF.holdsIn, hF.request]
  split
  · cases (s.request q).req with
    | none => rfl
    | some l => exact (hF.setRequest _ _ _).symm
  · rfl

theorem writeSlot : Machine.writeSlot (F s) q = mapNext F (Machine.writeSlot s q) := by
  by_cases h : s.canWriteSlot q
  · obtain ⟨hheld, hreq, hpx⟩ := h
    obtain ⟨l, hl⟩ := Option.isSome_iff_exists.mp hreq
    obtain ⟨p, hp⟩ := Option.isSome_iff_exists.mp hpx
    simp only [Machine.writeSlot, hF.holdsIn, if_pos hheld, hF.request, hl, hp, hF.buf]
    cases Memory.writeBytes s.buf (slotAddress l.led) p.bytes with
    | none => rfl
    | some m => rw [mapNext_next, hF.setBuf, hF.setRequest]
  · have hF' : ¬ (F s).canWriteSlot q := by simpa only [State.canWriteSlot, hF.holdsIn, hF.request] using h
    rw [writeSlot_of_not_enabled h, writeSlot_of_not_enabled hF', mapNext_next]

theorem composeFrame : Machine.composeFrame (F s) q = mapNext F (Machine.composeFrame s q) := by
  simp only [Machine.composeFrame, State.canCompose, hF.holdsIn, hF.request, hF.wholeBuffer]
  split
  · cases s.wholeBuffer with
    | none => rfl
    | some bs => rw [mapNext_next, hF.setRequest]
  · rfl

theorem beginWrite : Machine.beginWrite (F s) q = F (Machine.beginWrite s q) := by
  simp only [Machine.beginWrite, State.canBeginWrite, hF.holdsIn, hF.request]
  split
  · exact (hF.setRequest _ _ _).symm
  · rfl

theorem takeAnswer : Machine.takeAnswer (F s) q = F (Machine.takeAnswer s q) := by
  simp only [Machine.takeAnswer, hF.holdsIn, hF.tx, hF.request]
  split
  · cases s.tx with
    | none => rfl
    | some r =>
      cases (s.request q).frame with
      | none => rfl
      | some f => rw [hF.appendWire, hF.setRequest]
  · rfl

theorem release : Machine.release (F s) q = F (Machine.release s q) := by
  simp only [Machine.release, hF.holdsIn, hF.request]
  split
  · rw [hF.setLock, hF.endRequest]
  · rfl

theorem work : Machine.work (F s) q = mapNext F (Machine.work s q) := by
  simp only [Machine.work, hF.latchPixel, hF.writeSlot]
  refine andThen_mapNext fun s1 => ?_
  rw [hF.composeFrame]
  exact andThen_mapNext fun s2 => by rw [hF.beginWrite, mapNext_next]

end Transparent

/-! ### The history (10_state.md R19) -/

/-- The state with the history `ws` before its own. -/
def State.withHistory (ws : List WireEntry) (s : State) : State := { s with wire := ws ++ s.wire }

theorem State.withHistory_transparent (ws : List WireEntry) : Transparent (State.withHistory ws) where
  up _ := rfl
  topo _ := rfl
  endpoints _ := rfl
  buf _ := rfl
  lock _ := rfl
  reqs _ := rfl
  alloc _ := rfl
  tx _ := rfl
  setRequest _ _ _ := rfl
  setLock _ _ := rfl
  setBuf _ _ := rfl
  appendWire s w := by simp [State.withHistory, State.appendWire]
  appendOrder _ _ := rfl

section
variable (ws : List WireEntry) (s : State)

theorem State.withHistory_agent : (s.withHistory ws).agent = s.agent := rfl

theorem State.withHistory_reporting (q : Nat) : (s.reporting q).withHistory ws = (s.withHistory ws).reporting q := by
  rw [State.reporting_eq, State.reporting_eq, (State.withHistory_transparent ws).report]
  rfl

theorem execSlotWr_withHistory : execSlotWr (s.withHistory ws) = mapNext (State.withHistory ws) (execSlotWr s) := by
  have hF := State.withHistory_transparent ws
  simp only [execSlotWr, State.withHistory_agent, State.canWriteSlot, hF.holdsIn, hF.request, hF.writeSlot]
  split
  · exact andThen_mapNext fun _ => rfl
  · rfl

theorem execBufRd_withHistory : execBufRd (s.withHistory ws) = mapNext (State.withHistory ws) (execBufRd s) := by
  have hF := State.withHistory_transparent ws
  simp only [execBufRd, State.withHistory_agent, hF.lock, hF.wholeBuffer]
  split
  · cases s.wholeBuffer <;> rfl
  · rfl

theorem execCompose_withHistory : execCompose (s.withHistory ws) = mapNext (State.withHistory ws) (execCompose s) := by
  have hF := State.withHistory_transparent ws
  simp only [execCompose, State.withHistory_agent, State.canCompose, hF.holdsIn, hF.request, hF.composeFrame]
  split
  · exact andThen_mapNext fun _ => rfl
  · rfl

theorem execXmit_withHistory : execXmit (s.withHistory ws) = mapNext (State.withHistory ws) (execXmit s) := by
  have hF := State.withHistory_transparent ws
  simp only [execXmit, State.withHistory_agent, hF.beginWrite, hF.holdsIn, hF.tx, hF.takeAnswer]
  split
  · cases s.tx <;> rfl
  · rfl

theorem execLockAcq_withHistory : execLockAcq (s.withHistory ws) = mapNext (State.withHistory ws) (execLockAcq s) := by
  have hF := State.withHistory_transparent ws
  simp only [execLockAcq, State.withHistory_agent, State.canAcquire, hF.lock, hF.phase, hF.acquire]
  split_ifs <;> rfl

theorem execLockRel_withHistory : execLockRel (s.withHistory ws) = mapNext (State.withHistory ws) (execLockRel s) := by
  have hF := State.withHistory_transparent ws
  simp only [execLockRel, State.withHistory_agent, hF.holdsIn, hF.release]
  split
  · rw [← State.withHistory_reporting, mapNext_next]
  · rfl

theorem execEncPx_withHistory (ch0 ch1 ch2 : Byte) :
    execEncPx ch0 ch1 ch2 (s.withHistory ws) = mapNext (State.withHistory ws) (execEncPx ch0 ch1 ch2 s) := by
  have hF := State.withHistory_transparent ws
  simp only [execEncPx, State.withHistory_agent, State.encodesOwnPixel, hF.holdsIn, hF.request, hF.latchPixel]
  split <;> rfl

theorem runRequest_withHistory (q : Nat) :
    runRequest (s.withHistory ws) q = mapNext (State.withHistory ws) (runRequest s q) := by
  have hF := State.withHistory_transparent ws
  simp only [runRequest, hF.checkFrame, hF.acquire, hF.work]
  exact andThen_mapNext fun u => by rw [hF.takeAnswer, hF.release, ← State.withHistory_reporting, mapNext_next]

theorem execUpdate_withHistory (led : Nat) (ch0 ch1 ch2 : Byte) :
    execUpdate led ch0 ch1 ch2 (s.withHistory ws) =
      mapNext (State.withHistory ws) (execUpdate led ch0 ch1 ch2 s) := by
  have hF := State.withHistory_transparent ws
  simp only [execUpdate, State.withHistory_agent, hF.invoke]
  cases invoke s s.agent led ch0 ch1 ch2 with
  | none => rfl
  | some u => exact runRequest_withHistory ws u s.agent

theorem execBringup_withHistory (n c b found : Nat) :
    execBringup n c b found (s.withHistory ws) = mapNext (State.withHistory ws) (execBringup n c b found s) := by
  simp only [execBringup, (State.withHistory_transparent ws).up]
  split_ifs <;> rfl

/-- An operation in a state with a longer history does the same to the rest of the state and appends the same. -/
theorem exec_withHistory (i : Instr) : exec i (s.withHistory ws) = mapNext (State.withHistory ws) (exec i s) := by
  cases i with
  | encPx ch0 ch1 ch2 => exact execEncPx_withHistory ws s ch0 ch1 ch2
  | slotWr => exact execSlotWr_withHistory ws s
  | bufRd => exact execBufRd_withHistory ws s
  | compose => exact execCompose_withHistory ws s
  | xmit => exact execXmit_withHistory ws s
  | lockAcq => exact execLockAcq_withHistory ws s
  | lockRel => exact execLockRel_withHistory ws s
  | update led ch0 ch1 ch2 => exact execUpdate_withHistory ws s led ch0 ch1 ch2
  | bringup n c b found => exact execBringup_withHistory ws s n c b found
  | _ => rfl

end

/-- Settles O52: the history `ws` before an empty one is `ws`. -/
theorem wireIsNeverRead : Obligations.WireIsNeverRead := by
  intro i s t ws h
  have hws : ({ s with wire := ws } : State) = State.withHistory ws { s with wire := [] } := by
    simp [State.withHistory]
  rw [hws, exec_withHistory, h]
  rfl

end Sys2Proof.Machine
end

section
/-! Proofs about `UPDATE` as one operation (43_update.md R110, R115; log entry 7). The request is made and checked; with
the lock free it is sent, and served when the transport answers (`State.sending`, `State.served`); otherwise it is
parked, and the rest of the big step does nothing. -/

namespace Sys2Proof.Machine

variable {s : State} {q led : Nat} {ch0 ch1 ch2 : Byte} {l : ReqLatch} {m : Memory} {r : TransportAnswer}

/-! ### A request that waits with the lock free -/

/-- Request `q` waits with operands `l`. -/
def waitingWith (l : ReqLatch) : Request := ⟨.wait, some l, none, false, none, none⟩

/-- The block after request `q` has taken the lock and done its work: its pixel written, which makes the buffer `m`,
and its frame handed to a transport that has not answered. -/
def State.sending (s : State) (q : Nat) (l : ReqLatch) (m : Memory) : State :=
  { s with
    buf := m
    lock := .held q
    reqs := Requests.set s.reqs q ⟨.send, some l, some l.pixel, true, some (padFrame (m.map Prod.snd)), none⟩
    order := s.order ++ [⟨q, l⟩] }

/-- The block after the whole critical section of request `q`, answered `r`. -/
def State.served (s : State) (q : Nat) (l : ReqLatch) (m : Memory) (r : TransportAnswer) : State :=
  { s with
    buf := m
    reqs := Requests.set s.reqs q ⟨.done, none, none, false, none, some r.toStatus⟩
    wire := s.wire ++ [⟨q, padFrame (m.map Prod.snd), r⟩]
    order := s.order ++ [⟨q, l⟩] }

theorem State.Inv.request_of_wait (hI : s.Inv) (hp : s.phase q = .wait) :
    ∃ l : ReqLatch, l.led < s.chips ∧ s.request q = waitingWith l := by
  obtain ⟨-, -, hwait, -, -, -⟩ := Request.fits_of_phase (hI.fits q)
  exact hwait hp

@[simp] theorem State.request_sending_self (s : State) (q : Nat) (l : ReqLatch) (m : Memory) :
    (s.sending q l m).request q =
      ⟨.send, some l, some l.pixel, true, some (padFrame (m.map Prod.snd)), none⟩ :=
  Requests.get_set_self ..

@[simp] theorem State.request_served_self (s : State) (q : Nat) (l : ReqLatch) (m : Memory) (r : TransportAnswer) :
    (s.served q l m r).request q = ⟨.done, none, none, false, none, some r.toStatus⟩ :=
  Requests.get_set_self ..

theorem State.sending_holdsIn (s : State) (q : Nat) (l : ReqLatch) (m : Memory) :
    (s.sending q l m).holdsIn q .send :=
  ⟨rfl, by rw [State.phase, State.request_sending_self]⟩

/-- The lock is taken, the pixel is written to its slot, and the frame is composed of the buffer with it. -/
theorem State.Inv.work_acquire (hI : s.Inv) (hfree : s.lock = .free) (hreq : s.request q = waitingWith l) :
    ∃ m, Memory.writeBytes s.buf (slotAddress l.led) l.pixel.bytes = some m ∧
      Machine.work (Machine.acquire s q) q = .next (s.sending q l m) := by
  have hp : s.phase q = .wait := by rw [State.phase, hreq, waitingWith]
  have hacq := acquire_of_enabled (s := s) (q := q) ⟨hfree, hp⟩
  rw [hreq, waitingWith] at hacq
  have hheld : (Machine.acquire s q).holdsIn q .held := by
    rw [hacq]
    exact ⟨rfl, State.phase_setRequest_self ..⟩
  obtain ⟨l', m, -, hl', hm, hwork⟩ := (hI.acquire q).work_eq hheld
  have hl : ((Machine.acquire s q).request q).req = some l := by
    rw [hacq]
    exact congrArg Request.req (State.request_setRequest_self ..)
  obtain rfl : l = l' := Option.some.inj (hl.symm.trans hl')
  rw [acquire_buf] at hm
  refine ⟨m, hm, hwork.trans ?_⟩
  rw [hacq]
  simp only [State.setRequest, State.setLock, State.appendOrder, State.setBuf, Requests.set_set]
  rfl

/-- When the transport has answered, the answer is taken and the lock is released. -/
theorem release_sending (hfree : s.lock = .free) (htx : s.tx = some r) :
    release (takeAnswer (s.sending q l m) q) q = s.served q l m r := by
  have htake := takeAnswer_of_answer (s.sending_holdsIn q l m) htx (by rw [State.request_sending_self])
  have hrel : (takeAnswer (s.sending q l m) q).holdsIn q .rel := by
    rw [htake]
    exact ⟨rfl, State.phase_setRequest_self ..⟩
  have hstatus : ((takeAnswer (s.sending q l m) q).request q).status = some r.toStatus := by
    rw [htake]
    exact congrArg Request.status (State.request_setRequest_self ..)
  rw [release_of_holder hrel, hstatus, htake]
  simp only [State.endRequest, State.setRequest, State.setLock, State.appendWire, State.sending, State.served,
    Requests.set_set, ← hfree]
  rfl

theorem release_sending_of_silence (htx : s.tx = none) :
    release (takeAnswer (s.sending q l m) q) q = s.sending q l m := by
  rw [takeAnswer_of_silence (s := s.sending q l m) htx, release_of_not_holder]
  rintro ⟨-, hp⟩
  rw [State.phase, State.request_sending_self] at hp
  cases hp

/-! ### A request that is parked -/

/-- Request `q` is parked: it has not been made, has ended, or waits for a lock that is not free. -/
structure Parked (s : State) (q : Nat) : Prop where
  phase : s.phase q = .idle ∨ s.phase q = .wait ∨ s.phase q = .done
  cannotAcquire : ¬ s.canAcquire q

theorem Parked.of_idle (h : s.phase q = .idle) : Parked s q :=
  ⟨.inl h, fun hcan => by cases h.symm.trans hcan.2⟩

theorem Parked.of_done (h : s.phase q = .done) : Parked s q :=
  ⟨.inr (.inr h), fun hcan => by cases h.symm.trans hcan.2⟩

theorem Parked.of_wait (h : s.phase q = .wait) (hlock : s.lock ≠ .free) : Parked s q :=
  ⟨.inr (.inl h), fun hcan => hlock hcan.1⟩

theorem Parked.not_holdsIn (h : Parked s q) {ph : Phase} (hph : ph.holdsLock = true) : ¬ s.holdsIn q ph := by
  rintro ⟨-, rfl⟩
  rcases h.phase with hp | hp | hp <;> simp [hp, Phase.holdsLock] at hph

/-- From the lock on a parked request does nothing. -/
theorem Parked.work_acquire (h : Parked s q) : work (acquire s q) q = .next s := by
  rw [acquire_of_not_enabled h.cannotAcquire, work_of_not_held (h.not_holdsIn rfl)]

theorem Parked.release_takeAnswer (h : Parked s q) : release (takeAnswer s q) q = s := by
  rw [takeAnswer_of_not_sending (h.not_holdsIn rfl), release_of_not_holder (h.not_holdsIn rfl)]

/-! ### The request is made -/

theorem State.Inv.endpoint (hI : s.Inv) (hled : led < s.chips) : s.endpoints[led]? = some ⟨led⟩ := by
  rw [hI.endpoints]
  simp [hled]

/-- Request `q` is in CHECK with operands `l`. -/
def checkingWith (l : ReqLatch) : Request := ⟨.check, some l, none, false, none, none⟩

theorem State.Inv.invoke_eq (hI : s.Inv) (hup : s.up = true) (hidle : s.phase q = .idle) (hled : led < s.chips) :
    Machine.invoke s q led ch0 ch1 ch2 = some (s.setRequest q (checkingWith ⟨led, ch0, ch1, ch2⟩)) :=
  invoke_of_endpoint hup hidle (hI.endpoint hled)

theorem State.Inv.invoke_eq_none (hI : s.Inv) (h : s.chips ≤ led ∨ s.phase q ≠ .idle) :
    Machine.invoke s q led ch0 ch1 ch2 = none := by
  unfold Machine.invoke
  split
  · rename_i hcan
    rcases h with hled | hp
    · have hnone : s.endpoints[led]? = none := by
        rw [hI.endpoints]
        simp [hled]
      rw [hnone]
    · exact absurd hcan.2 hp
  · rfl

theorem execUpdate_of_invoke {t : State} (h : invoke s s.agent led ch0 ch1 ch2 = some t) :
    exec (.update led ch0 ch1 ch2) s = runRequest t s.agent := by
  change execUpdate led ch0 ch1 ch2 s = _
  simp only [execUpdate, h]

theorem execUpdate_of_no_invoke (h : invoke s s.agent led ch0 ch1 ch2 = none) :
    exec (.update led ch0 ch1 ch2) s = .next (s.answers .noStep) := by
  change execUpdate led ch0 ch1 ch2 s = _
  simp only [execUpdate, h]

/-- Settles O35: the request cannot be made. -/
theorem requestWithoutEndpointIsDropped : Obligations.RequestWithoutEndpointIsDropped :=
  fun _ _ _ _ _ hI h => execUpdate_of_no_invoke (hI.invoke_eq_none h)

theorem checkFrame_checkingWith_of_ok (ha : s.alloc = .ok) :
    checkFrame (s.setRequest q (checkingWith l)) q = s.setRequest q (waitingWith l) := by
  rw [checkFrame_of_ok (s := s.setRequest q (checkingWith l)) (State.phase_setRequest_self ..) ha,
    State.request_setRequest_self, State.setRequest_setRequest]
  rfl

theorem checkFrame_checkingWith_of_fail (ha : s.alloc = .fail) :
    checkFrame (s.setRequest q (checkingWith l)) q = s.endRequest q (some .allocationFailure) := by
  rw [checkFrame_of_fail (s := s.setRequest q (checkingWith l)) (State.phase_setRequest_self ..) ha,
    State.endRequest, State.setRequest_setRequest]
  rfl

/-- The request is parked after its check: the big step ends there. -/
theorem runRequest_of_parked (h : Parked (checkFrame s q) q) :
    runRequest s q = .next ((checkFrame s q).reporting q) := by
  rw [runRequest, h.work_acquire, andThen_next, h.release_takeAnswer]

/-- Settles O32: the check ends the request, and an ended request is parked. -/
theorem allocationFailureChangesNothing : Obligations.AllocationFailureChangesNothing := by
  intro s led ch0 ch1 ch2 hI hup hled hidle hfail
  have hcheck := checkFrame_checkingWith_of_fail (q := s.agent) (l := ⟨led, ch0, ch1, ch2⟩) hfail
  have hdone := State.phase_endRequest_self s s.agent (some .allocationFailure)
  rw [execUpdate_of_invoke (hI.invoke_eq hup hidle hled), runRequest_of_parked (hcheck ▸ .of_done hdone), hcheck,
    State.reporting_eq, State.report_of_done hdone (congrArg Request.status (State.request_endRequest_self ..))]
  rfl

/-- Settles O33: with the lock held the checked request is parked in WAIT. -/
theorem updateWaitsForAHeldLock : Obligations.UpdateWaitsForAHeldLock := by
  intro s led ch0 ch1 ch2 p hI hup hled hidle hok hheld
  have hcheck := checkFrame_checkingWith_of_ok (q := s.agent) (l := ⟨led, ch0, ch1, ch2⟩) hok
  have hwait := State.phase_setRequest_self s s.agent (waitingWith ⟨led, ch0, ch1, ch2⟩)
  have hparked : Parked (s.setRequest s.agent (waitingWith ⟨led, ch0, ch1, ch2⟩)) s.agent :=
    .of_wait hwait (by simp [hheld])
  rw [execUpdate_of_invoke (hI.invoke_eq hup hidle hled), runRequest_of_parked (hcheck ▸ hparked), hcheck,
    State.reporting_eq, State.report_of_wait hwait]
  rfl

/-! ### The request runs -/

/-- A request of an `UPDATE` with the lock free and its storage there reaches the transport. -/
theorem State.Inv.exec_update_sending (hI : s.Inv) (hup : s.up = true) (hled : led < s.chips)
    (hidle : s.phase s.agent = .idle) (hfree : s.lock = .free) (hok : s.alloc = .ok) :
    ∃ m, Memory.writeBytes s.buf (slotAddress led) (encodePixel ch0 ch1 ch2).bytes = some m ∧
      exec (.update led ch0 ch1 ch2) s = .next
        ((Machine.release (Machine.takeAnswer (s.sending s.agent ⟨led, ch0, ch1, ch2⟩ m) s.agent)
          s.agent).reporting s.agent) := by
  have hmade := hI.invoke_eq (ch0 := ch0) (ch1 := ch1) (ch2 := ch2) hup hidle hled
  have hcheck := checkFrame_checkingWith_of_ok (q := s.agent) (l := ⟨led, ch0, ch1, ch2⟩) hok
  have hIw := (hI.invoke hmade).checkFrame s.agent
  rw [hcheck] at hIw
  obtain ⟨m, hm, hwork⟩ := hIw.work_acquire hfree (State.request_setRequest_self ..)
  refine ⟨m, hm, ?_⟩
  have hsame : (s.setRequest s.agent (waitingWith ⟨led, ch0, ch1, ch2⟩)).sending s.agent ⟨led, ch0, ch1, ch2⟩ m =
      s.sending s.agent ⟨led, ch0, ch1, ch2⟩ m := by
    simp only [State.sending, State.setRequest, Requests.set_set]
  rw [execUpdate_of_invoke hmade, Machine.runRequest, hcheck, hwork, andThen_next, hsame]

/-- And when the transport answers, the request is served. -/
theorem State.Inv.exec_update_served (hI : s.Inv) (hup : s.up = true) (hled : led < s.chips)
    (hidle : s.phase s.agent = .idle) (hfree : s.lock = .free) (hok : s.alloc = .ok) (htx : s.tx = some r) :
    ∃ m, Memory.writeBytes s.buf (slotAddress led) (encodePixel ch0 ch1 ch2).bytes = some m ∧
      exec (.update led ch0 ch1 ch2) s = .next
        ((s.served s.agent ⟨led, ch0, ch1, ch2⟩ m r).answers (.status r.toStatus)) := by
  obtain ⟨m, hm, hexec⟩ := hI.exec_update_sending (ch0 := ch0) (ch1 := ch1) (ch2 := ch2) hup hled hidle hfree hok
  refine ⟨m, hm, ?_⟩
  rw [hexec, release_sending hfree htx, State.reporting_eq, State.report_of_done (st := r.toStatus)]
  · rw [State.phase, State.request_served_self]
  · rw [State.request_served_self]

/-- Settles O31: the request is served; the reads of its slot and of the others are those of the slot write. -/
theorem updateRunsToItsEnd : Obligations.UpdateRunsToItsEnd := by
  intro s led ch0 ch1 ch2 r hI hup hled hidle hfree hok htx
  obtain ⟨m, hm, hexec⟩ := hI.exec_update_served hup hled hidle hfree hok htx
  exact ⟨_, hexec, fun _ hj => Memory.read_in_written_slot hm hj, fun _ ha => Memory.read_outside_written_slot hm ha,
    rfl⟩

/-- Settles O34: without an answer the request stays in SEND. -/
theorem unansweredUpdateKeepsTheLock : Obligations.UnansweredUpdateKeepsTheLock := by
  intro s led ch0 ch1 ch2 hI hup hled hidle hfree hok htx
  obtain ⟨m, hm, hexec⟩ := hI.exec_update_sending hup hled hidle hfree hok
  rw [release_sending_of_silence htx, State.reporting_eq] at hexec
  have hreport : (s.sending s.agent ⟨led, ch0, ch1, ch2⟩ m).report s.agent = .waiting := by
    have hp := (s.sending_holdsIn s.agent ⟨led, ch0, ch1, ch2⟩ m).2
    simp only [State.report, hp]
  rw [hreport] at hexec
  exact ⟨_, hexec, fun _ hj => Memory.read_in_written_slot hm hj, fun _ ha => Memory.read_outside_written_slot hm ha,
    rfl⟩

/-- Settles O56: the served request's slot holds its pixel, the lock is free, and the last frame is its own. -/
theorem bufferAndLedsCanDisagreeAfterAFailure : Obligations.BufferAndLedsCanDisagreeAfterAFailure := by
  intro s t led ch0 ch1 ch2 r hI hup hled hidle hfree hok htx h
  obtain ⟨m, hm, hexec⟩ := hI.exec_update_served hup hled hidle hfree hok htx
  obtain rfl := Host.Outcome.next.inj (hexec.symm.trans h)
  have hview : State.chainView ((s.served s.agent ⟨led, ch0, ch1, ch2⟩ m r).answers (.status r.toStatus)) =
      answeredView (s.wire ++ [⟨s.agent, padFrame (m.map Prod.snd), r⟩]) := by
    simp [State.chainView, State.writeInFlight, State.served, State.answers, hfree]
  refine ⟨Memory.readBytes_written_slot hm, fun hr => ?_, fun e hr => ?_⟩
  · rw [hview, hr]
    simp only [answeredView, List.getLast?_append, List.getLast?_singleton, Option.some_or]
    rfl
  · rw [hview, hr]
    simp only [answeredView, List.getLast?_append, List.getLast?_singleton, Option.some_or]

/-! ### The work under the lock as a turn (43_update.md R115) -/

theorem advance_of_held (h : s.phase q = .held) :
    advance s q = andThen (work s q) fun t => .next (t.reporting q) := by
  simp only [advance, h]

/-- Settles O29: the work under the lock is known, and the request then waits for the transport. -/
theorem workUnderTheLock : Obligations.WorkUnderTheLock := by
  intro s t rest hI ha hact hlock hp
  obtain ⟨l, m, -, hreq, hm, hwork⟩ := (hI.beginTurn t rest).work_eq (q := t.agent) ⟨hlock, hp⟩
  have hstep : step s = .next ((((s.beginTurn t rest).setRequest t.agent
      ⟨.send, some l, some l.pixel, true, some (padFrame (m.map Prod.snd)), none⟩).setBuf m).answers .waiting) := by
    have hreport := State.phase_setRequest_self (s.beginTurn t rest) t.agent
      ⟨.send, some l, some l.pixel, true, some (padFrame (m.map Prod.snd)), none⟩
    rw [step_of_advance ha hact, advance_of_held (s := s.beginTurn t rest) hp, hwork, andThen_next,
      State.reporting_eq]
    simp only [State.report, State.setBuf_phase, hreport]
  exact ⟨l, _, hreq, hstep, fun _ hj => Memory.read_in_written_slot hm hj,
    fun _ ha => Memory.read_outside_written_slot hm ha, rfl⟩

end Sys2Proof.Machine
end

section
/-! Proofs about runs (43_update.md sections 1, 3 and 4). `Runs xs s t` says that the turns `xs` take the block of `s`
to that of `t`, in whatever schedule they stand. The big step of `UPDATE` is composed of the same named operations as the
turns of its request, so runs of turns are compared with it operation by operation. -/

namespace Sys2Proof.Machine

variable {s t u : State} {q : Nat} {xs : List Turn}

/-! ### Turns that stand in a schedule -/

/-- The state with acting request `p`, the turns `ts` to come and the last answer `r`. -/
def State.scheduled (p : Nat) (ts : List Turn) (r : Result) (s : State) : State :=
  { s with agent := p, agenda := ts, result := r }

theorem State.scheduled_transparent (p : Nat) (ts : List Turn) (r : Result) : Transparent (State.scheduled p ts r) :=
  ⟨fun _ => rfl, fun _ => rfl, fun _ => rfl, fun _ => rfl, fun _ => rfl, fun _ => rfl, fun _ => rfl, fun _ => rfl,
    fun _ _ _ => rfl, fun _ _ => rfl, fun _ _ => rfl, fun _ _ => rfl, fun _ _ => rfl⟩

/-- The turns `xs` take the block of `s` to that of `t`, whatever turns come after them. -/
def Runs (xs : List Turn) (s t : State) : Prop :=
  ∀ (k : Nat) (ts : List Turn) (p : Nat) (r : Result), ∃ p' r',
    Sys2Proof.core.run (k + xs.length) (State.scheduled p (xs ++ ts) r s) =
      Sys2Proof.core.run k (State.scheduled p' ts r' t)

theorem core_run_succ (h : step s = .next t) (k : Nat) : Sys2Proof.core.run (k + 1) s = Sys2Proof.core.run k t := by
  have hstep : Sys2Proof.core.step s = .next t := h
  simp only [Host.Core.run, hstep]

theorem Runs.refl (s : State) : Runs [] s s := fun _ _ p r => ⟨p, r, rfl⟩

theorem Runs.append {ys : List Turn} (h : Runs xs s t) (h' : Runs ys t u) : Runs (xs ++ ys) s u := by
  intro k ts p r
  obtain ⟨p1, r1, h1⟩ := h (k + ys.length) (ys ++ ts) p r
  obtain ⟨p2, r2, h2⟩ := h' k ts p1 r1
  refine ⟨p2, r2, ?_⟩
  rw [List.length_append, Nat.add_comm xs.length, ← Nat.add_assoc, List.append_assoc, h1, h2]

theorem Runs.cons {x : Turn} (h : Runs [x] s t) (h' : Runs xs t u) : Runs (x :: xs) s u := h.append h'

/-- The turns alone, from the state itself. -/
theorem Runs.run (h : Runs xs s t) :
    ∃ p r, Sys2Proof.core.run xs.length (s.withAgenda xs) = .next (State.scheduled p [] r t) := by
  obtain ⟨p, r, hrun⟩ := h 0 [] s.agent s.result
  rw [Nat.zero_add, List.append_nil] at hrun
  exact ⟨p, r, hrun⟩

/-- One turn, from what its act does. -/
theorem Runs.of_act {a : Act}
    (h : ∀ ts r, ∃ r', act a (State.scheduled q ts r s) = .next (State.scheduled q ts r' t)) :
    Runs [turnOf s q a] s t := by
  intro k ts p r
  obtain ⟨r', hact⟩ := h ts r
  exact ⟨q, r', core_run_succ ((step_of_turn (s := State.scheduled p (turnOf s q a :: ts) r s) rfl).trans hact) k⟩

/-- Named operations leave the environment's answers as they stand, so the turns made from them are the same. -/
theorem turnOf_eq (h : SmallSteps q s t) (p : Nat) (a : Act) : turnOf t p a = turnOf s p a := by
  have halloc : t.alloc = s.alloc := congrArg Fixed.alloc h.fixed_eq
  have htx : t.tx = s.tx := congrArg Fixed.tx h.fixed_eq
  rw [turnOf, halloc, htx, turnOf]

/-- A turn after named operations. -/
theorem Runs.after (h : SmallSteps q s t) {a : Act} (hrun : Runs [turnOf t q a] t u) : Runs [turnOf s q a] t u := by
  rwa [turnOf_eq h] at hrun

/-! ### The turns of one request -/

theorem Runs.invoke {led : Nat} {ch0 ch1 ch2 : Byte} (h : Machine.invoke s q led ch0 ch1 ch2 = some t) :
    Runs [turnOf s q (.invoke led ch0 ch1 ch2)] s t := by
  refine Runs.of_act fun ts r => ⟨t.report q, ?_⟩
  have hF := State.scheduled_transparent q ts r
  have hmade : Machine.invoke (State.scheduled q ts r s) (State.scheduled q ts r s).agent led ch0 ch1 ch2 =
      some (State.scheduled q ts r t) := (hF.invoke s q led ch0 ch1 ch2).trans (by rw [h]; rfl)
  simp only [act, hmade]
  rw [State.reporting_eq]
  exact congrArg (fun r' => Host.Outcome.next (State.scheduled q ts r' t)) (hF.report t q)

theorem Runs.invoke_of_none {led : Nat} {ch0 ch1 ch2 : Byte} (h : Machine.invoke s q led ch0 ch1 ch2 = none) :
    Runs [turnOf s q (.invoke led ch0 ch1 ch2)] s s := by
  refine Runs.of_act fun ts r => ⟨.noStep, ?_⟩
  have hmade : Machine.invoke (State.scheduled q ts r s) (State.scheduled q ts r s).agent led ch0 ch1 ch2 = none :=
    ((State.scheduled_transparent q ts r).invoke s q led ch0 ch1 ch2).trans (by rw [h]; rfl)
  simp only [act, hmade]
  rfl

/-- The named operations that the small step of request `q` is, by its phase (43_update.md section 3). -/
def smallStep (s : State) (q : Nat) : Step :=
  match s.phase q with
  | .idle | .done => .next s
  | .check => .next (checkFrame s q)
  | .wait => .next (acquire s q)
  | .held => work s q
  | .send => .next (takeAnswer s q)
  | .rel => .next (release s q)

/-- A small step is its named operations and an answer. -/
theorem advance_eq_smallStep (s : State) (q : Nat) :
    ∃ r : State → Result, advance s q = andThen (smallStep s q) fun t => .next (t.answers (r t)) := by
  unfold advance smallStep
  cases s.phase q with
  | idle | done => exact ⟨fun _ => .noStep, rfl⟩
  | check | wait | held | send | rel => exact ⟨fun t => t.report q, rfl⟩

theorem Transparent.smallStep {F : State → State} (hF : Transparent F) (s : State) (q : Nat) :
    Machine.smallStep (F s) q = mapNext F (Machine.smallStep s q) := by
  unfold Machine.smallStep
  rw [hF.phase]
  cases s.phase q with
  | idle | done => rfl
  | check => exact congrArg _ (hF.checkFrame s q)
  | wait => exact congrArg _ (hF.acquire s q)
  | held => exact hF.work s q
  | send => exact congrArg _ (hF.takeAnswer s q)
  | rel => exact congrArg _ (hF.release s q)

theorem Runs.advance (h : smallStep s q = .next t) : Runs [turnOf s q .advance] s t := by
  refine Runs.of_act fun ts r => ?_
  obtain ⟨f, hf⟩ := advance_eq_smallStep (State.scheduled q ts r s) q
  rw [(State.scheduled_transparent q ts r).smallStep, h, mapNext_next, andThen_next] at hf
  exact ⟨_, hf⟩

theorem SmallSteps.of_smallStep (h : smallStep s q = .next t) : SmallSteps q s t := by
  unfold smallStep at h
  split at h
  · cases h; exact .refl
  · cases h; exact .refl
  · cases h; exact .single (.checked s)
  · cases h; exact .single (.acquired s)
  · exact .of_work h
  · cases h; exact .single (.taken s)
  · cases h; exact .single (.released s)

/-- A small step and then `n` more of the same request. -/
theorem Runs.advance_succ {n : Nat} (h : smallStep s q = .next t)
    (hmore : Runs (List.replicate n (turnOf t q .advance)) t u) :
    Runs (List.replicate (n + 1) (turnOf s q .advance)) s u := by
  rw [turnOf_eq (SmallSteps.of_smallStep h)] at hmore
  exact (Runs.advance h).cons hmore

theorem smallStep_of_check (h : s.phase q = .check) : smallStep s q = .next (checkFrame s q) := by
  simp only [smallStep, h]

theorem smallStep_of_wait (h : s.phase q = .wait) : smallStep s q = .next (acquire s q) := by
  simp only [smallStep, h]

theorem smallStep_of_held (h : s.phase q = .held) : smallStep s q = work s q := by
  simp only [smallStep, h]

theorem smallStep_of_send (h : s.phase q = .send) : smallStep s q = .next (takeAnswer s q) := by
  simp only [smallStep, h]

theorem smallStep_of_rel (h : s.phase q = .rel) : smallStep s q = .next (release s q) := by
  simp only [smallStep, h]

theorem smallStep_of_parked (h : Parked s q) : smallStep s q = .next s := by
  rcases h.phase with hp | hp | hp
  · simp only [smallStep, hp]
  · rw [smallStep_of_wait hp, acquire_of_not_enabled h.cannotAcquire]
  · simp only [smallStep, hp]

theorem Runs.parked (h : Parked s q) (n : Nat) : Runs (List.replicate n (turnOf s q .advance)) s s := by
  induction n with
  | zero => exact .refl s
  | succ n ih => exact .advance_succ (smallStep_of_parked h) ih

/-! ### The critical section as four small steps -/

/-- The last two small steps of a request in SEND: the answer and the release, or nothing if there is no answer. -/
theorem runs_from_sending {l : ReqLatch} {m : Memory} :
    Runs (List.replicate 2 (turnOf (s.sending q l m) q .advance)) (s.sending q l m)
      (release (takeAnswer (s.sending q l m) q) q) := by
  have hsend := s.sending_holdsIn q l m
  have htake := smallStep_of_send hsend.2
  cases htx : s.tx with
  | some r =>
    have hrel : (takeAnswer (s.sending q l m) q).phase q = .rel := by
      rw [takeAnswer_of_answer hsend htx (by rw [State.request_sending_self])]
      exact State.phase_setRequest_self ..
    exact .advance_succ htake (.advance_succ (smallStep_of_rel hrel) (.refl _))
  | none =>
    rw [takeAnswer_of_silence (s := s.sending q l m) htx] at htake
    rw [release_sending_of_silence htx]
    exact .advance_succ htake (.advance_succ htake (.refl _))

theorem acquire_phase (h : s.canAcquire q) : (acquire s q).phase q = .held := by
  rw [acquire_of_enabled h]
  exact State.phase_setRequest_self ..

/-- Four small steps of a request that has been checked are the rest of the big step. -/
theorem State.Inv.runs_from_wait (hI : s.Inv) (hp : s.phase q = .wait ∨ s.phase q = .done) :
    ∃ u, Machine.work (Machine.acquire s q) q = .next u ∧
      Runs (List.replicate 4 (turnOf s q .advance)) s (Machine.release (Machine.takeAnswer u q) q) := by
  by_cases hcan : s.canAcquire q
  · obtain ⟨l, -, hreq⟩ := hI.request_of_wait hcan.2
    obtain ⟨m, -, hwork⟩ := hI.work_acquire hcan.1 hreq
    refine ⟨_, hwork, .advance_succ (smallStep_of_wait hcan.2) (.advance_succ ?_ runs_from_sending)⟩
    rw [smallStep_of_held (acquire_phase hcan), hwork]
  · have hparked : Parked s q := ⟨.inr hp, hcan⟩
    refine ⟨s, hparked.work_acquire, ?_⟩
    rw [hparked.release_takeAnswer]
    exact .parked hparked 4

/-- The check ends with the request in WAIT or DONE. -/
theorem checkFrame_phase (h : s.phase q = .check) :
    (checkFrame s q).phase q = .wait ∨ (checkFrame s q).phase q = .done := by
  obtain ⟨hno, -⟩ | ⟨-, -, he⟩ | ⟨-, -, he⟩ := checkFrame_cases s q
  · exact absurd h hno
  · exact .inl (by rw [he, State.phase_setRequest_self])
  · exact .inr (by rw [he, State.phase_endRequest_self])

/-- Five small steps of a request in CHECK are the big step. -/
theorem State.Inv.runs_runRequest (hI : s.Inv) (hp : s.phase q = .check) :
    ∃ u, Machine.runRequest s q = .next (u.reporting q) ∧
      Runs (List.replicate 5 (turnOf s q .advance)) s u := by
  obtain ⟨u, hwork, hruns⟩ := (hI.checkFrame q).runs_from_wait (checkFrame_phase hp)
  exact ⟨_, by rw [Machine.runRequest, hwork, andThen_next], .advance_succ (smallStep_of_check hp) hruns⟩

/-- Settles O36: the small steps of a request that is made compose the big step, and one that is not made stays in
IDLE. -/
theorem updateEqualsItsSmallSteps : Obligations.UpdateEqualsItsSmallSteps := by
  intro s led ch0 ch1 ch2 hI hidle
  cases hmade : invoke s s.agent led ch0 ch1 ch2 with
  | none =>
    obtain ⟨p, r, hrun⟩ := ((Runs.invoke_of_none hmade).cons (.parked (.of_idle hidle) 5)).run
    exact ⟨_, _, execUpdate_of_no_invoke hmade, hrun, rfl⟩
  | some s1 =>
    have hp : s1.phase s.agent = .check := by
      obtain ⟨-, -, ep, -, rfl⟩ := invoke_eq_some hmade
      exact State.phase_setRequest_self ..
    obtain ⟨u, hbig, hsmall⟩ := (hI.invoke hmade).runs_runRequest hp
    rw [turnOf_eq (.single (.made hmade))] at hsmall
    obtain ⟨p, r, hrun⟩ := ((Runs.invoke hmade).cons hsmall).run
    exact ⟨_, _, (execUpdate_of_invoke hmade).trans hbig, hrun, rfl⟩

/-! ### Served requests (43_update.md section 4) -/

/-- Four small steps serve a waiting request when the lock is free and the transport answers. -/
theorem State.Inv.runs_served (hI : s.Inv) {l : ReqLatch} {r : TransportAnswer} (hfree : s.lock = .free)
    (hreq : s.request q = waitingWith l) (htx : s.tx = some r) :
    ∃ m, Memory.writeBytes s.buf (slotAddress l.led) l.pixel.bytes = some m ∧ (s.served q l m r).Inv ∧
      Runs (List.replicate 4 (turnOf s q .advance)) s (s.served q l m r) := by
  have hp : s.phase q = .wait := by rw [State.phase, hreq, waitingWith]
  obtain ⟨m, hm, hwork⟩ := hI.work_acquire hfree hreq
  obtain ⟨u, hu, hruns⟩ := hI.runs_from_wait (.inl hp)
  obtain rfl := Host.Outcome.next.inj (hwork.symm.trans hu)
  have hIserved := (((hI.acquire q).work hwork).takeAnswer q).release q
  rw [release_sending hfree htx] at hruns hIserved
  exact ⟨m, hm, hIserved, hruns⟩

/-- Settles O39: the four small steps serve the request. -/
theorem servedRequestEnds : Obligations.ServedRequestEnds := by
  intro s q r hI hfree hp htx
  obtain ⟨l, -, hreq⟩ := hI.request_of_wait hp
  obtain ⟨m, -, -, hruns⟩ := hI.runs_served hfree hreq htx
  obtain ⟨p, r', hrun⟩ := hruns.run
  exact ⟨_, hrun, hfree, s.request_served_self q l m r⟩

theorem in_slot_or_outside (i x : Nat) : (∃ k < 9, x = 9 * i + k) ∨ (x < 9 * i ∨ 9 * i + 9 ≤ x) := by
  by_cases h : 9 * i ≤ x ∧ x < 9 * i + 9
  · exact .inl ⟨x - 9 * i, by omega, by omega⟩
  · exact .inr (by omega)

/-- Writes to two slots commute. -/
theorem Memory.writeBytes_slots_comm {m mi mj mij mji : Memory} {i j : Nat} {a b : EncodedPixel} (hne : i ≠ j)
    (hn : (m.map Prod.fst).Nodup) (hi : m.writeBytes (slotAddress i) a.bytes = some mi)
    (hij : mi.writeBytes (slotAddress j) b.bytes = some mij) (hj : m.writeBytes (slotAddress j) b.bytes = some mj)
    (hji : mj.writeBytes (slotAddress i) a.bytes = some mji) : mij = mji := by
  have ki := (Memory.writeBytes_spec _ hi).2
  have kij := (Memory.writeBytes_spec _ hij).2
  have kj := (Memory.writeBytes_spec _ hj).2
  have kji := (Memory.writeBytes_spec _ hji).2
  refine Memory.eq_of_reads (by rw [kij, ki, kji, kj]) (by rw [kij, ki]; exact hn) fun x => ?_
  rcases in_slot_or_outside i x with ⟨k, hk, rfl⟩ | hxi
  · rw [Memory.read_outside_written_slot hij (by omega), Memory.read_in_written_slot hi hk,
      Memory.read_in_written_slot hji hk]
  · rw [Memory.read_outside_written_slot hji hxi]
    rcases in_slot_or_outside j x with ⟨k, hk, rfl⟩ | hxj
    · rw [Memory.read_in_written_slot hij hk, Memory.read_in_written_slot hj hk]
    · rw [Memory.read_outside_written_slot hij hxj, Memory.read_outside_written_slot hi hxi,
        Memory.read_outside_written_slot hj hxj]

theorem State.request_served_of_ne {p : Nat} {l : ReqLatch} {m : Memory} {r : TransportAnswer} (h : q ≠ p) :
    (s.served p l m r).request q = s.request q :=
  Requests.get_set_ne _ _ h

/-- Two waiting requests, served one after the other. -/
theorem State.Inv.runs_served_twice (hI : s.Inv) {p : Nat} {lp lq : ReqLatch} {r : TransportAnswer}
    (hfree : s.lock = .free) (hpq : q ≠ p) (hp : s.request p = waitingWith lp) (hq : s.request q = waitingWith lq)
    (htx : s.tx = some r) :
    ∃ m m', Memory.writeBytes s.buf (slotAddress lp.led) lp.pixel.bytes = some m ∧
      Memory.writeBytes m (slotAddress lq.led) lq.pixel.bytes = some m' ∧
      Runs (List.replicate 4 (turnOf s p .advance) ++ List.replicate 4 (turnOf s q .advance)) s
        ((s.served p lp m r).served q lq m' r) := by
  obtain ⟨m, hm, hI1, hfirst⟩ := hI.runs_served hfree hp htx
  obtain ⟨m', hm', -, hsecond⟩ :=
    hI1.runs_served (q := q) (l := lq) (r := r) hfree ((State.request_served_of_ne hpq).trans hq) htx
  exact ⟨m, m', hm, hm', hfirst.append hsecond⟩

/-- Settles O38: each order serves both requests, and the slot writes commute. -/
theorem lockOrderDoesNotChangeTheFinalBuffer : Obligations.LockOrderDoesNotChangeTheFinalBuffer := by
  intro s p q lp lq r hI hfree hpq hwp hwq hreqp hreqq hled htx
  obtain ⟨lp', -, hp⟩ := hI.request_of_wait hwp
  obtain ⟨lq', -, hq⟩ := hI.request_of_wait hwq
  obtain rfl : lp' = lp := Option.some.inj ((congrArg Request.req hp).symm.trans hreqp)
  obtain rfl : lq' = lq := Option.some.inj ((congrArg Request.req hq).symm.trans hreqq)
  obtain ⟨m, mpq, hm, hmpq, hfirst⟩ := hI.runs_served_twice hfree hpq.symm hp hq htx
  obtain ⟨n, nqp, hn, hnqp, hsecond⟩ := hI.runs_served_twice hfree hpq hq hp htx
  obtain rfl : mpq = nqp := Memory.writeBytes_slots_comm hled hI.addresses_nodup hm hmpq hn hnqp
  obtain ⟨_, _, hrunp⟩ := hfirst.run
  obtain ⟨_, _, hrunq⟩ := hsecond.run
  refine ⟨_, _, m, n, hrunp, hrunq, rfl, hm, hn, List.append_assoc .., List.append_assoc .., ?_, ?_⟩
  · exact Memory.readBytes_written_slot hnqp
  · exact Memory.readBytes_written_slot hmpq

/-! ### The operations in order (43_update.md R110) -/

/-- A turn that presents an operation, from what the operation does. -/
theorem Runs.present {i : Instr}
    (h : ∀ ts r, ∃ r', exec i (State.scheduled q ts r s) = .next (State.scheduled q ts r' t)) :
    Runs [turnOf s q (.present (encode i))] s t := by
  refine Runs.of_act fun ts r => ?_
  rw [act, present_of_decode (decodeOfEncodeIsTheOperation i)]
  exact h ts r

theorem Runs.lockAcq (s : State) (q : Nat) : Runs [turnOf s q (.present (encode .lockAcq))] s (acquire s q) := by
  refine Runs.present fun ts r => ?_
  obtain ⟨r', he⟩ := exec_lockAcq (State.scheduled q ts r s)
  rw [he]
  exact ⟨r', congrArg (fun u : State => Host.Outcome.next (u.answers r'))
    ((State.scheduled_transparent q ts r).acquire s q)⟩

theorem Runs.lockRel (s : State) (q : Nat) : Runs [turnOf s q (.present (encode .lockRel))] s (release s q) := by
  refine Runs.present fun ts r => ?_
  obtain ⟨r', he⟩ := exec_lockRel (State.scheduled q ts r s)
  rw [he]
  exact ⟨r', congrArg (fun u : State => Host.Outcome.next (u.answers r'))
    ((State.scheduled_transparent q ts r).release s q)⟩

theorem Runs.xmit (s : State) (q : Nat) :
    Runs [turnOf s q (.present (encode .xmit))] s (takeAnswer (beginWrite s q) q) := by
  refine Runs.present fun ts r => ?_
  have hF := State.scheduled_transparent q ts r
  obtain ⟨r', he⟩ := exec_xmit (State.scheduled q ts r s)
  rw [he]
  exact ⟨r', congrArg (fun u : State => Host.Outcome.next (u.answers r'))
    ((congrArg (takeAnswer · q) (hF.beginWrite s q)).trans (hF.takeAnswer _ q))⟩

theorem Runs.slotWr (h : writeSlot s q = .next t) : Runs [turnOf s q (.present (encode .slotWr))] s t := by
  refine Runs.present fun ts r => ?_
  obtain ⟨r', he⟩ := exec_slotWr (State.scheduled q ts r s)
  have hwrite := (State.scheduled_transparent q ts r).writeSlot s q
  rw [h, mapNext_next] at hwrite
  exact ⟨r', he.trans (congrArg (fun o => andThen o fun u => .next (u.answers r')) hwrite)⟩

theorem Runs.compose (h : composeFrame s q = .next t) : Runs [turnOf s q (.present (encode .compose))] s t := by
  refine Runs.present fun ts r => ?_
  obtain ⟨r', he⟩ := exec_compose (State.scheduled q ts r s)
  have hcompose := (State.scheduled_transparent q ts r).composeFrame s q
  rw [h, mapNext_next] at hcompose
  exact ⟨_, he.trans (congrArg (fun o => andThen o fun u => .next (u.answers (r' u))) hcompose)⟩

theorem Runs.encPx {l : ReqLatch} (hheld : s.holdsIn q .held) (hreq : (s.request q).req = some l) :
    Runs [turnOf s q (.present (encode (.encPx l.ch0 l.ch1 l.ch2)))] s (latchPixel s q) := by
  refine Runs.present fun ts r => ⟨.bytes (encodePixel l.ch0 l.ch1 l.ch2).bytes, ?_⟩
  rw [latchPixel_of_holder hheld hreq]
  exact exec_encPx_of_own (s := State.scheduled q ts r s) ⟨hheld.1, hheld.2, l.led, hreq⟩

/-- The work under the lock, taken apart into its operations. -/
theorem work_eq_next (h : work s q = .next t) :
    ∃ b c, writeSlot (latchPixel s q) q = .next b ∧ composeFrame b q = .next c ∧ t = beginWrite c q := by
  obtain ⟨b, hb, h⟩ := andThen_eq_next h
  obtain ⟨c, hc, h⟩ := andThen_eq_next h
  exact ⟨b, c, hb, hc, (Host.Outcome.next.inj h).symm⟩

/-- The six operations under the lock, presented in order, are the rest of the big step. -/
theorem Runs.operations {l : ReqLatch} (hcan : s.canAcquire q) (hreq : (s.request q).req = some l)
    (h : work (acquire s q) q = .next u) :
    Runs [turnOf s q (.present (encode .lockAcq)), turnOf s q (.present (encode (.encPx l.ch0 l.ch1 l.ch2))),
      turnOf s q (.present (encode .slotWr)), turnOf s q (.present (encode .compose)),
      turnOf s q (.present (encode .xmit)), turnOf s q (.present (encode .lockRel))] s
      (release (takeAnswer u q) q) := by
  obtain ⟨b, c, hb, hc, rfl⟩ := work_eq_next h
  have hheld : (acquire s q).holdsIn q .held := ⟨by rw [acquire_of_enabled hcan]; rfl, acquire_phase hcan⟩
  have hown : ((acquire s q).request q).req = some l := by
    rw [acquire_of_enabled hcan]
    exact (congrArg Request.req (State.request_setRequest_self ..)).trans hreq
  have h1 : SmallSteps q s (acquire s q) := .single (.acquired s)
  have h2 := h1.tail (.latched _)
  have h3 := h2.tail (.written hb)
  have h4 := h3.tail (.composed hc)
  have h5 := (h4.tail (.begun c)).tail (.taken _)
  exact (lockAcq s q).cons <| (after h1 (encPx hheld hown)).cons <| (after h2 (slotWr hb)).cons <|
    (after h3 (compose hc)).cons <| (after h4 (xmit c q)).cons (after h5 (lockRel _ q))

/-- Settles O37: with the lock free the operations in order serve the request, as `UPDATE` does. -/
theorem updateEqualsItsOperationsInOrder : Obligations.UpdateEqualsItsOperationsInOrder := by
  intro s led ch0 ch1 ch2 r hI hup hled hidle hfree hok htx
  have hmade := hI.invoke_eq (ch0 := ch0) (ch1 := ch1) (ch2 := ch2) hup hidle hled
  have hcheck := checkFrame_checkingWith_of_ok (q := s.agent) (l := ⟨led, ch0, ch1, ch2⟩) hok
  have hIw := (hI.invoke hmade).checkFrame s.agent
  rw [hcheck] at hIw
  have hreq := s.request_setRequest_self s.agent (waitingWith ⟨led, ch0, ch1, ch2⟩)
  obtain ⟨m, -, hwork⟩ := hIw.work_acquire hfree hreq
  have hchecked : smallStep (s.setRequest s.agent (checkingWith ⟨led, ch0, ch1, ch2⟩)) s.agent =
      .next (s.setRequest s.agent (waitingWith ⟨led, ch0, ch1, ch2⟩)) :=
    (smallStep_of_check (State.phase_setRequest_self ..)).trans (congrArg _ hcheck)
  have hops := Runs.operations (s := s.setRequest s.agent (waitingWith ⟨led, ch0, ch1, ch2⟩))
    ⟨hfree, State.phase_setRequest_self ..⟩ (congrArg Request.req hreq) hwork
  obtain ⟨p, r', hrun⟩ := ((Runs.invoke hmade).cons ((Runs.advance hchecked).cons hops)).run
  have hbig : exec (.update led ch0 ch1 ch2) s = _ := execUpdate_of_invoke hmade
  rw [runRequest, hcheck, hwork, andThen_next] at hbig
  exact ⟨_, _, hbig, hrun, rfl⟩

end Sys2Proof.Machine
end
